-- ==== Sys2Proof/Word.lean ====
section
/-! DEFINITION. The word types of the BFU. 10_state.md R27 gives the widths of its signals, 00_scope.md R9 fixes the data
word at 64 bits, and 00_scope.md R12 numbers bits from 0 at the least significant bit (as BitVec does). -/

namespace Sys2Proof

/-- A data word: A, B and RESULT (R9, R27). -/
abbrev Word := BitVec 64

/-- The 32-bit values that ROL32 and BSWAP32 work on (R9, R43). -/
abbrev Half := BitVec 32

/-- The control word CTL (R27, R61). -/
abbrev Ctl := BitVec 32

/-- The error code ERR (R27, R301). -/
abbrev ErrCode := BitVec 2

end Sys2Proof
end

