-- ==== Sys2Proof/Syntax.lean ====
section
/-! DEFINITION. The requests of the BFU: one constructor per row of spec/opcode_table.json (30_encoding.md R65, R66).
A constructor carries the fields of CTL that its operation reads (R63), as the unsigned integers they are (R62); A and B
arrive on the operand signals and are no part of the instruction. -/

namespace Sys2Proof

/-- An operation as the control word selects it. `pos` and `len` are the bit position and the bit count of R61. -/
inductive Instr where
  /-- op 0, R101. -/
  | mask (len : Nat)
  /-- op 1, R103. -/
  | extract (pos len : Nat)
  /-- op 2, R105. -/
  | replace (pos len : Nat)
  /-- op 3, R107. -/
  | test (pos : Nat)
  /-- op 4, R141. -/
  | sext (len : Nat)
  /-- op 5, R143. -/
  | npow2
  /-- op 6, R146. -/
  | clz
  /-- op 7, R148. -/
  | bitlen
  /-- op 8, R181. -/
  | rol32 (len : Nat)
  /-- op 9, R183. -/
  | rol64 (len : Nat)
  /-- op 10, R185. -/
  | revbits (len : Nat)
  /-- op 11, R187. -/
  | bswap32
  /-- op 12, R189. -/
  | bswap64
  /-- op 13, R221. -/
  | mulh
  /-- op 14, R223. -/
  | mulhu
  /-- op 15, R225. -/
  | mulhsu
  /-- op 16 to 31, R66: the table's row reserved_op_16-31, with the fields the table gives it. -/
  | reserved (op pos len : Nat)
deriving DecidableEq, Repr

end Sys2Proof
end

