-- ==== Sys2Proof/WellFormed.lean ====
section
/-! DEFINITION. Which terms of Instr a control word can carry: `pos` and `len` are 7-bit fields, 0 to 127 (30_encoding.md
R62, R70), and a reserved operation number is 16 to 31 (R66). Being outside an operation's DOMAIN (R63) is not ill-formed:
such a request is encoded and answered with DOMAIN (R10, R303). -/

namespace Sys2Proof

/-- A 7-bit field holds 0 to 127 (R62). -/
def fieldFits (n : Nat) : Bool := decide (n ≤ 127)

/-- The reserved operation numbers (R66). -/
def opReserved (op : Nat) : Bool := decide (16 ≤ op) && decide (op ≤ 31)

/-- The instruction can be encoded in a control word (R62, R66, R70). -/
def Instr.wf : Instr → Bool
  | .mask len => fieldFits len
  | .extract pos len => fieldFits pos && fieldFits len
  | .replace pos len => fieldFits pos && fieldFits len
  | .test pos => fieldFits pos
  | .sext len => fieldFits len
  | .npow2 => true
  | .clz => true
  | .bitlen => true
  | .rol32 len => fieldFits len
  | .rol64 len => fieldFits len
  | .revbits len => fieldFits len
  | .bswap32 => true
  | .bswap64 => true
  | .mulh => true
  | .mulhu => true
  | .mulhsu => true
  | .reserved op pos len => opReserved op && fieldFits pos && fieldFits len

end Sys2Proof
end

