-- ==== Sys2Proof/Decode.lean ====
section
/-! DEFINITION. The control word: its fields (30_encoding.md R61, R62), the decoder (R65, R66, R67, R72), the encoder
(R70), and the opcode table of R65 and spec/opcode_table.json as mask and match rows. -/

namespace Sys2Proof

/-- Why a control word is no row of the opcode table. -/
inductive Reject where
  /-- A bit of CTL[31:19] is set (R67): the step answers ILLEGAL_OP. Carries CTL[31:19]. -/
  | reservedBits (rsv : BitVec 13)
deriving DecidableEq, Repr

/-- CTL[4:0] as an unsigned integer (R61, R62). -/
def Ctl.op (ctl : Ctl) : Nat := (ctl.extractLsb' 0 5).toNat

/-- CTL[11:5] as an unsigned integer (R61, R62). -/
def Ctl.pos (ctl : Ctl) : Nat := (ctl.extractLsb' 5 7).toNat

/-- CTL[18:12] as an unsigned integer (R61, R62). -/
def Ctl.len (ctl : Ctl) : Nat := (ctl.extractLsb' 12 7).toNat

/-- CTL[31:19] (R61). -/
def Ctl.rsv (ctl : Ctl) : BitVec 13 := ctl.extractLsb' 19 13

/-- The operation each value of `op` selects (R65, R66), with the fields it reads (R63). -/
def selectOp (op pos len : Nat) : Instr :=
  match op with
  | 0 => .mask len
  | 1 => .extract pos len
  | 2 => .replace pos len
  | 3 => .test pos
  | 4 => .sext len
  | 5 => .npow2
  | 6 => .clz
  | 7 => .bitlen
  | 8 => .rol32 len
  | 9 => .rol64 len
  | 10 => .revbits len
  | 11 => .bswap32
  | 12 => .bswap64
  | 13 => .mulh
  | 14 => .mulhu
  | 15 => .mulhsu
  | n => .reserved n pos len

/-- The field decode of CTL, total (R72): CTL[31:19] is checked first (R67, R304), then `op` selects. -/
def decode (ctl : Ctl) : Except Reject Instr :=
  if Ctl.rsv ctl = 0 then .ok (selectOp (Ctl.op ctl) (Ctl.pos ctl) (Ctl.len ctl))
  else .error (.reservedBits (Ctl.rsv ctl))

/-- `encode(op, pos, len)` of R70. -/
def encodeFields (op pos len : Nat) : Ctl := BitVec.ofNat 32 (len * 2 ^ 12 + pos * 2 ^ 5 + op)

/-- The `op` number of an instruction (R65). -/
def Instr.opNumber : Instr → Nat
  | .mask _ => 0
  | .extract _ _ => 1
  | .replace _ _ => 2
  | .test _ => 3
  | .sext _ => 4
  | .npow2 => 5
  | .clz => 6
  | .bitlen => 7
  | .rol32 _ => 8
  | .rol64 _ => 9
  | .revbits _ => 10
  | .bswap32 => 11
  | .bswap64 => 12
  | .mulh => 13
  | .mulhu => 14
  | .mulhsu => 15
  | .reserved op _ _ => op

/-- The control word of an instruction: a field that R63 marks `-` is encoded as 0 (R70). -/
def encode : Instr → Ctl
  | .mask len => encodeFields 0 0 len
  | .extract pos len => encodeFields 1 pos len
  | .replace pos len => encodeFields 2 pos len
  | .test pos => encodeFields 3 pos 0
  | .sext len => encodeFields 4 0 len
  | .npow2 => encodeFields 5 0 0
  | .clz => encodeFields 6 0 0
  | .bitlen => encodeFields 7 0 0
  | .rol32 len => encodeFields 8 0 len
  | .rol64 len => encodeFields 9 0 len
  | .revbits len => encodeFields 10 0 len
  | .bswap32 => encodeFields 11 0 0
  | .bswap64 => encodeFields 12 0 0
  | .mulh => encodeFields 13 0 0
  | .mulhu => encodeFields 14 0 0
  | .mulhsu => encodeFields 15 0 0
  | .reserved op pos len => encodeFields op pos len

/-- The mnemonic of spec/opcode_table.json. -/
def Instr.mnemonic : Instr → String
  | .mask _ => "MASK"
  | .extract _ _ => "EXTRACT"
  | .replace _ _ => "REPLACE"
  | .test _ => "TEST"
  | .sext _ => "SEXT"
  | .npow2 => "NPOW2"
  | .clz => "CLZ"
  | .bitlen => "BITLEN"
  | .rol32 _ => "ROL32"
  | .rol64 _ => "ROL64"
  | .revbits _ => "REVBITS"
  | .bswap32 => "BSWAP32"
  | .bswap64 => "BSWAP64"
  | .mulh => "MULH"
  | .mulhu => "MULHU"
  | .mulhsu => "MULHSU"
  | .reserved _ _ _ => "reserved_op_16-31"

/-- A row of the opcode table: a control word is this row's when `ctl &&& mask = pattern`. -/
structure OpRow where
  mnemonic : String
  pattern : Ctl
  mask : Ctl
deriving DecidableEq, Repr

/-- Does the control word match the row (R65: "as a 32-bit match/mask pair")? -/
def OpRow.accepts (row : OpRow) (ctl : Ctl) : Bool := ctl &&& row.mask == row.pattern

/-- The rows of spec/opcode_table.json of the families 41 and 42. -/
def opcodeRowsLow : List OpRow :=
  [⟨"MASK", 0x00000000, 0xFFF8001F⟩, ⟨"EXTRACT", 0x00000001, 0xFFF8001F⟩, ⟨"REPLACE", 0x00000002, 0xFFF8001F⟩,
   ⟨"TEST", 0x00000003, 0xFFF8001F⟩, ⟨"SEXT", 0x00000004, 0xFFF8001F⟩, ⟨"NPOW2", 0x00000005, 0xFFF8001F⟩,
   ⟨"CLZ", 0x00000006, 0xFFF8001F⟩, ⟨"BITLEN", 0x00000007, 0xFFF8001F⟩]

/-- The rows of spec/opcode_table.json of the families 43 and 44, and the reserved row. -/
def opcodeRowsHigh : List OpRow :=
  [⟨"ROL32", 0x00000008, 0xFFF8001F⟩, ⟨"ROL64", 0x00000009, 0xFFF8001F⟩, ⟨"REVBITS", 0x0000000A, 0xFFF8001F⟩,
   ⟨"BSWAP32", 0x0000000B, 0xFFF8001F⟩, ⟨"BSWAP64", 0x0000000C, 0xFFF8001F⟩, ⟨"MULH", 0x0000000D, 0xFFF8001F⟩,
   ⟨"MULHU", 0x0000000E, 0xFFF8001F⟩, ⟨"MULHSU", 0x0000000F, 0xFFF8001F⟩,
   ⟨"reserved_op_16-31", 0x00000010, 0xFFF80010⟩]

/-- spec/opcode_table.json, all 17 rows. -/
def opcodeTable : List OpRow := opcodeRowsLow ++ opcodeRowsHigh

/-- The bits of CTL that an operation reads beside CTL[31:19] and CTL[4:0]: those of the fields that R63 gives it
(R68 calls the others ignored). -/
def Instr.usedFields : Instr → Ctl
  | .mask _ => 0x0007F000
  | .extract _ _ => 0x0007FFE0
  | .replace _ _ => 0x0007FFE0
  | .test _ => 0x00000FE0
  | .sext _ => 0x0007F000
  | .npow2 => 0
  | .clz => 0
  | .bitlen => 0
  | .rol32 _ => 0x0007F000
  | .rol64 _ => 0x0007F000
  | .revbits _ => 0x0007F000
  | .bswap32 => 0
  | .bswap64 => 0
  | .mulh => 0
  | .mulhu => 0
  | .mulhsu => 0
  | .reserved _ _ _ => 0x0007FFE0

/-- The instruction the decoder reads from a table word: CTL is one 32-bit word, so the table's numbering of bits is CTL's
own; bits above `nbits` are 0. -/
def decodeTableWord (nbits w : Nat) : Option Instr :=
  match decode (BitVec.ofNat 32 (w % 2 ^ nbits)) with
  | .ok i => some i
  | .error _ => none

end Sys2Proof
end

