-- ==== Sys2Proof/Machine/Operands.lean ====
section
/-! DEFINITION. The datapath: every shared definition of the family files, as functions of the operand words
(00_scope.md R13 gives the notation; Lean's `<<<` and `>>>` by a Nat are the notation's total shifts). -/

namespace Sys2Proof.Machine

/-! ### Bit fields (41_bitfield.md) -/

/-- `ones(n)` (R100): bits n-1 down to 0 set. -/
def ones (n : Nat) : Word := BitVec.ofNat 64 (2 ^ n - 1)

/-- EXTRACT's result (R103). -/
def extractField (a : Word) (pos len : Nat) : Word := (a >>> pos) &&& ones len

/-- REPLACE's result (R105), `ones len <<< pos` being the field's mask. -/
def replaceField (a : Word) (pos len : Nat) (b : Word) : Word :=
  (a &&& ~~~(ones len <<< pos)) ||| ((b &&& ones len) <<< pos)

/-- TEST's result, `zext_64(A[pos])` (R107). -/
def testBit (a : Word) (pos : Nat) : Word := (BitVec.ofBool (a.getLsbD pos)).setWidth 64

/-! ### Sign extension and normalization (42_signext_normalize.md) -/

/-- SEXT's result: shift left, then arithmetic shift right (R141). -/
def signExtendLow (a : Word) (len : Nat) : Word := (a <<< (64 - len)).sshiftRight (64 - len)

/-- One step of `smear` (R140): OR with the right shift by `k`. -/
def smearStep (x : Word) (k : Nat) : Word := x ||| (x >>> k)

/-- `smear` (R140): the six OR-shifts. -/
def smear (x : Word) : Word :=
  smearStep (smearStep (smearStep (smearStep (smearStep (smearStep x 1) 2) 4) 8) 16) 32

/-- How many of the bits below bit `n` are set. -/
def countSetBelow (x : Word) : Nat → Nat
  | 0 => 0
  | n + 1 => countSetBelow x n + (x.getLsbD n).toNat

/-- `popcount` (R140). -/
def popcount (x : Word) : Nat := countSetBelow x 64

/-- NPOW2's result (R143): the passthrough of 0 and of the powers of two, else smear and increment modulo 2^64. -/
def nextPow2 (a : Word) : Word := if a &&& (a - 1) = 0 then a else smear a + 1

/-- CLZ's result (R146). -/
def leadingZeros (a : Word) : Word := BitVec.ofNat 64 (popcount (~~~(smear a)))

/-- BITLEN's result (R148). -/
def bitLength (a : Word) : Word := BitVec.ofNat 64 (popcount (smear a))

/-! ### Rotates, bit reverse and byte-swaps (43_rotate_permute.md) -/

/-- A[31:0] (R43). -/
def lowHalf (a : Word) : Half := a.extractLsb' 0 32

/-- ROL32's result, zero-extended (R181, R64). -/
def rotateLeft32 (a : Word) (len : Nat) : Word :=
  ((lowHalf a <<< len) ||| (lowHalf a >>> (32 - len))).setWidth 64

/-- ROL64's result (R183). -/
def rotateLeft64 (a : Word) (len : Nat) : Word := (a <<< len) ||| (a >>> (64 - len))

/-- The loop of R185 after its first `n` iterations: iteration `i` puts A[i] at bit `len - 1 - i`. -/
def reverseLoop (a : Word) (len : Nat) : Nat → Word
  | 0 => 0
  | n + 1 => reverseLoop a len n ||| (((BitVec.ofBool (a.getLsbD n)).setWidth 64 : Word) <<< (len - 1 - n))

/-- REVBITS's result (R185). -/
def reverseLow (a : Word) (len : Nat) : Word := reverseLoop a len len

/-- Byte `k` of a word, bits [8k+7:8k] (R12). -/
def byteOf (a : Word) (k : Nat) : BitVec 8 := a.extractLsb' (8 * k) 8

/-- BSWAP32's result, zero-extended (R187): the bytes of A[31:0] from the least significant up. -/
def byteSwap32 (a : Word) : Word :=
  (byteOf a 0 ++ byteOf a 1 ++ byteOf a 2 ++ byteOf a 3 : BitVec 32).setWidth 64

/-- BSWAP64's result (R189). -/
def byteSwap64 (a : Word) : Word :=
  byteOf a 0 ++ byteOf a 1 ++ byteOf a 2 ++ byteOf a 3 ++ byteOf a 4 ++ byteOf a 5 ++ byteOf a 6 ++ byteOf a 7

/-! ### Wide multiplication, high part (44_mulhigh.md) -/

/-- `hi64(p)` (R220): `floor(p / 2^64)` (Lean's division by a positive integer is the floor), modulo 2^64. -/
def hi64 (p : Int) : Word := BitVec.ofInt 64 (p / 2 ^ 64)

/-- MULH's result (R221). -/
def mulHighSigned (a b : Word) : Word := hi64 (a.toInt * b.toInt)

/-- MULHU's result (R223). -/
def mulHighUnsigned (a b : Word) : Word := hi64 ((a.toNat : Int) * (b.toNat : Int))

/-- MULHSU's result (R225): A is the signed operand. -/
def mulHighSignedUnsigned (a b : Word) : Word := hi64 (a.toInt * (b.toNat : Int))

/-- A[63:32] as an integer (R228). -/
def highHalfNat (a : Word) : Nat := (a.extractLsb' 32 32).toNat

/-- The portable decomposition of R228: MULHU from four products of 32-bit halves. A build of `MUL_IMPL` may compute MULHU
so (R227); no meaning uses it. -/
def mulhuPortable (a b : Word) : Word :=
  let p00 := (lowHalf a).toNat * (lowHalf b).toNat
  let p01 := (lowHalf a).toNat * highHalfNat b
  let p10 := highHalfNat a * (lowHalf b).toNat
  let p11 := highHalfNat a * highHalfNat b
  let mid := p00 / 2 ^ 32 + p01 % 2 ^ 32 + p10 % 2 ^ 32
  BitVec.ofNat 64 (p11 + p01 / 2 ^ 32 + p10 / 2 ^ 32 + mid / 2 ^ 32)

/-- The correction of R226: `x` when the sign bit of `v` is set, else 0. -/
def ifNegative (v x : Word) : Word := if v.getLsbD 63 then x else 0

/-- MULHSU from the portable MULHU by the correction of R226. -/
def mulhsuPortable (a b : Word) : Word := mulhuPortable a b - ifNegative a b

/-- MULH from the portable MULHU by the corrections of R226. -/
def mulhPortable (a b : Word) : Word := mulhuPortable a b - ifNegative a b - ifNegative b a

end Sys2Proof.Machine
end

