-- ==== Sys2Proof/Machine/Flags.lean ====
section
/-! DEFINITION. The BFU has no flags (10_state.md R23). Its status output is ERR: the codes of 60_exceptions.md R301, and
the domain conditions of 30_encoding.md R63 and 60_exceptions.md R303 that choose between OK and DOMAIN. -/

namespace Sys2Proof.Machine

/-- ERR 0b00, OK: RESULT holds the operation's result (R301). -/
abbrev errOk : ErrCode := 0

/-- ERR 0b01, ILLEGAL_OP: CTL selects no operation (R301, R302). -/
abbrev errIllegalOp : ErrCode := 1

/-- ERR 0b10, DOMAIN: an operand is outside the operation's domain (R301, R303). -/
abbrev errDomain : ErrCode := 2

/-- `field_ok` (R100): the domain of EXTRACT and REPLACE. -/
def fieldOk (pos len : Nat) : Bool := decide (len ≤ 64) && decide (pos ≤ 64) && decide (pos + len ≤ 64)

/-- The domain of MASK and of REVBITS: a bit count of 0 to 64 (R101, R185). -/
def countOk (len : Nat) : Bool := decide (len ≤ 64)

/-- The domain of TEST: a bit of a 64-bit word (R107). -/
def bitOk (pos : Nat) : Bool := decide (pos ≤ 63)

/-- The domain of SEXT (R141). -/
def signWidthOk (len : Nat) : Bool := decide (1 ≤ len) && decide (len ≤ 64)

/-- The domain of a rotate of width `w` (R180): an amount below the width, not masked. -/
def rotateOk (w len : Nat) : Bool := decide (len < w)

end Sys2Proof.Machine
end

