-- ==== Sys2Proof/Config.lean ====
section
/-! DEFINITION. What an implementation of the BFU fixes (00_scope.md R11). `XLEN` is fixed at 64 and stands in Word.lean.
`MUL_IMPL` is unobservable and needs no argument (93_implementation_defined.md I14; log entry 11). `LAT` is OPEN: it is the
field `lat` of State, which no step changes, so that every statement is made for every value of it. No free value is needed:
no operation leaves a value open (R72), and RESULT and ERR while `rsp_valid` = 0 have no value at all (R29; log entry 6). -/

namespace Sys2Proof

/-- DESIGN CHOICE (log entry 2): the latency of the one unit that `State.reset` shows. The spec leaves `LAT` OPEN (R11);
it is 1 and not 0 because reset exists only when `LAT` > 0 (R340). Only `State.reset` reads this number; the statements are
about `State.resetWith lat` for every `lat`. UNSAFE for a claim about `State.reset` alone. -/
def Config.resetLat : Nat := 1

end Sys2Proof
end

