-- ==== Sys2Proof/Machine/State.lean ====
section
/-! DEFINITION. What the spec gives the machine to hold (INVENTORY.md, "State"): the build parameter `LAT`, the input
signals of the current cycle, the settled response of the request they present, the pipeline slots, and, the model's own,
what the caller will drive in the coming cycles. There is no architectural state beside them (10_state.md R20 to R25). -/

namespace Sys2Proof.Machine

/-- Why the machine stops with a fault. `step` and every meaning never do (R72); only the CALLER's reads of the outputs
(`readResponse`, `useResult`) do. -/
inductive Fault where
  /-- Raised by `readResponse` and `useResult`: RESULT or ERR is read while `rsp_valid` = 0 (R29: "reading them is a fault
  of the caller"; R348 (2)). Safe: no value is given. -/
  | responseNotValid
  /-- Raised by `useResult`: RESULT is used under ERR = ILLEGAL_OP (R314, R348 (3)). Safe: no value is given. -/
  | illegalOpResponse
  /-- Raised by `useResult`: RESULT is used under ERR = DOMAIN (R314, R348 (3)). Safe: no value is given. -/
  | domainResponse
deriving DecidableEq, Repr

/-- Why the machine has no meaning for an instruction. -/
inductive Refusal where
  /-- Raised by `exec` for an instruction that is not modelled; no arm raises it. Safe. -/
  | notModelled (mnemonic : String)
deriving DecidableEq, Repr

/-- The values the unit answers a request with: the signals RESULT and ERR (R27). -/
structure Response where
  result : Word
  err : ErrCode
deriving DecidableEq, Repr

/-- The input signals in one cycle (R27). `rst` and `reqValid` exist only when `LAT` > 0 and are not read when `LAT` = 0
(log entry 14). -/
structure Pins where
  rst : Bool
  reqValid : Bool
  ctl : Ctl
  a : Word
  b : Word
deriving DecidableEq, Repr

/-- The machine in one cycle, its signals settled. -/
structure State where
  /-- `LAT` (R11, R343): a build parameter, which no step changes. -/
  lat : Nat
  /-- The input signals in this cycle (R27, R28). -/
  pins : Pins
  /-- The response of the request presented in this cycle, once the signals have settled, or none when no request is
  presented (R28). -/
  front : Option Response
  /-- The pipeline slots, youngest first; `none` is a slot whose valid bit is 0 (R26, R30; log entry 5). -/
  slots : List (Option Response)
  /-- What the caller will drive in the coming cycles, the next cycle first (log entry 3). -/
  inputs : List Pins
deriving DecidableEq, Repr

/-- The input signals as `State.reset` shows them: reset over, no request, every data signal 0.
DESIGN CHOICE (log entry 4): the caller drives them and the spec gives no value. UNSAFE. -/
def Pins.idle : Pins := { rst := false, reqValid := false, ctl := 0, a := 0, b := 0 }

/-- The unit of latency `lat` in the cycle after a reset edge (R30): every slot's valid bit is 0. When `lat` = 0 there is no
reset, and the output is the function of the current inputs (R30, R340): CTL = 0 is MASK 0, whose response is 0, OK. -/
def State.resetWith (lat : Nat) : State :=
  { lat := lat
    pins := Pins.idle
    front := if lat = 0 then some { result := 0, err := 0 } else none
    slots := List.replicate lat none
    inputs := [] }

/-- The machine right after reset (R30, R341). Its latency is `Config.resetLat` (log entry 2). -/
def State.reset : State := State.resetWith Config.resetLat

end Sys2Proof.Machine
end

