-- ==== Sys2Proof/Machine/Ops.lean ====
section
/-! DEFINITION. The operations the meanings share: giving a response (00_scope.md R13), raising an error
(60_exceptions.md R302, R303), the rising clock edge with the synchronous reset (70_reset_and_hazards.md R341, R343), and
the outputs as the caller reads them (10_state.md R28, R29). An error is a response in its place (R300): nothing is saved,
no mode changes, control goes nowhere (R305), and there is no return from it (R306). -/

namespace Sys2Proof.Machine

/-! ### Answering a request -/

/-- `respond(r, e)` (R13): the presented request's response. Nothing else changes (R23, R305). -/
def respond (r : Word) (e : ErrCode) (s : State) : Host.Outcome State Fault Refusal :=
  .next { s with front := some { result := r, err := e } }

/-- The one way an error is raised (R302, R303): `respond(to_bits_64(0), code)`. -/
def raiseError (e : ErrCode) (s : State) : Host.Outcome State Fault Refusal := respond 0 e s

/-- `raise IllegalOp()` (R302). -/
def raiseIllegalOp (s : State) : Host.Outcome State Fault Refusal := raiseError errIllegalOp s

/-- `raise DomainError()` (R303). -/
def raiseDomainError (s : State) : Host.Outcome State Fault Refusal := raiseError errDomain s

/-- An operation checks its own domain first; outside it raises DomainError, else it ends with `respond(r, 0b00)` (R73). -/
def respondIf (inDomain : Bool) (r : Word) (s : State) : Host.Outcome State Fault Refusal :=
  if inDomain then respond r errOk s else raiseDomainError s

/-! ### The clock edge -/

/-- A request is presented in this cycle (R28): when `LAT` > 0, `req_valid` = 1 and `rst` = 0; when `LAT` = 0 the current
inputs always are one. -/
def State.presents (s : State) : Bool := (s.pins.reqValid && !s.pins.rst) || s.lat == 0

/-- Stage 0 is the request presented in this cycle; stage k is the one presented k cycles ago, in slot k-1 (R26, R343). -/
def State.stages (s : State) : List (Option Response) := s.front :: s.slots

/-- What the caller drives in the next cycle: the head of `inputs`; after the list's end it holds CTL, A and B and drives
`rst` = `req_valid` = 0 (log entry 3). -/
def State.nextPins (s : State) : Pins :=
  match s.inputs with
  | [] => { s.pins with rst := false, reqValid := false }
  | p :: _ => p

/-- The slots after the rising edge: a reset edge clears every valid bit and takes no request (R341); any other edge takes
the presented request and moves every other one a slot on (R28, R343). With `LAT` = 0 there are no slots (R26). -/
def State.slotsAfterEdge (s : State) : List (Option Response) :=
  if s.pins.rst then List.replicate s.lat none else s.stages.take s.lat

/-- The rising edge, and the caller's new inputs on the pins, not settled yet (R28, R341). -/
def State.clockEdge (s : State) : State :=
  { lat := s.lat
    pins := s.nextPins
    front := none
    slots := s.slotsAfterEdge
    inputs := s.inputs.tail }

/-! ### The outputs -/

/-- RESULT and ERR in this cycle, and whether they have a value: stage `LAT` (R28, R343). `none` is `rsp_valid` = 0, when
they have no value (R29). With `LAT` = 0 it is the settled response of the current inputs (R28). -/
def State.response (s : State) : Option Response := (s.stages[s.lat]?).join

/-- The signal `rsp_valid` (R344); with `LAT` = 0 the signal does not exist. -/
def State.rspValid (s : State) : Bool := s.response.isSome

/-- The caller reads RESULT and ERR: a fault of the caller while they have no value (R29, R348 (2)). -/
def readResponse (s : State) : Host.Outcome Response Fault Refusal :=
  match s.response with
  | some r => .next r
  | none => .fault .responseNotValid

/-- The caller uses RESULT as the operation's result: it checks ERR first (R348 (3)), and any ERR but OK is taken as a
fault of the calling program (R314). -/
def useResult (s : State) : Host.Outcome Word Fault Refusal :=
  match s.response with
  | none => .fault .responseNotValid
  | some r =>
    if r.err = errOk then .next r.result
    else if r.err = errIllegalOp then .fault .illegalOpResponse
    else .fault .domainResponse

end Sys2Proof.Machine
end

