-- ==== Sys2Proof/Machine/BitField.lean ====
section
/-! DEFINITION. The meanings of MASK, EXTRACT, REPLACE and TEST (41_bitfield.md). -/

namespace Sys2Proof.Machine

/-- MASK (R101). -/
def execMask (len : Nat) (s : State) : Host.Outcome State Fault Refusal :=
  respondIf (countOk len) (ones len) s

/-- EXTRACT (R103). -/
def execExtract (pos len : Nat) (s : State) : Host.Outcome State Fault Refusal :=
  respondIf (fieldOk pos len) (extractField s.pins.a pos len) s

/-- REPLACE (R105). -/
def execReplace (pos len : Nat) (s : State) : Host.Outcome State Fault Refusal :=
  respondIf (fieldOk pos len) (replaceField s.pins.a pos len s.pins.b) s

/-- TEST (R107). -/
def execTest (pos : Nat) (s : State) : Host.Outcome State Fault Refusal :=
  respondIf (bitOk pos) (testBit s.pins.a pos) s

end Sys2Proof.Machine
end

