-- ==== Sys2Proof/Machine/MulHigh.lean ====
section
/-! DEFINITION. The meanings of MULH, MULHU and MULHSU (44_mulhigh.md). -/

namespace Sys2Proof.Machine

/-- MULH (R221). -/
def execMulh (s : State) : Host.Outcome State Fault Refusal :=
  respond (mulHighSigned s.pins.a s.pins.b) errOk s

/-- MULHU (R223). -/
def execMulhu (s : State) : Host.Outcome State Fault Refusal :=
  respond (mulHighUnsigned s.pins.a s.pins.b) errOk s

/-- MULHSU (R225). -/
def execMulhsu (s : State) : Host.Outcome State Fault Refusal :=
  respond (mulHighSignedUnsigned s.pins.a s.pins.b) errOk s

end Sys2Proof.Machine
end

