-- ==== Sys2Proof/Machine/Reserved.lean ====
section
/-! DEFINITION. The meaning of the reserved operation numbers 16 to 31 (30_encoding.md R66). -/

namespace Sys2Proof.Machine

/-- A reserved `op`: ILLEGAL_OP whatever its number, `pos` and `len` (R66, R302, R304); it records nothing (R302). -/
def execReserved (_op _pos _len : Nat) (s : State) : Host.Outcome State Fault Refusal := raiseIllegalOp s

end Sys2Proof.Machine
end

