-- ==== Sys2Proof/Machine/RotatePermute.lean ====
section
/-! DEFINITION. The meanings of ROL32, ROL64, REVBITS, BSWAP32 and BSWAP64 (43_rotate_permute.md). -/

namespace Sys2Proof.Machine

/-- ROL32 (R181). -/
def execRol32 (len : Nat) (s : State) : Host.Outcome State Fault Refusal :=
  respondIf (rotateOk 32 len) (rotateLeft32 s.pins.a len) s

/-- ROL64 (R183). -/
def execRol64 (len : Nat) (s : State) : Host.Outcome State Fault Refusal :=
  respondIf (rotateOk 64 len) (rotateLeft64 s.pins.a len) s

/-- REVBITS (R185). -/
def execRevbits (len : Nat) (s : State) : Host.Outcome State Fault Refusal :=
  respondIf (countOk len) (reverseLow s.pins.a len) s

/-- BSWAP32 (R187). -/
def execBswap32 (s : State) : Host.Outcome State Fault Refusal := respond (byteSwap32 s.pins.a) errOk s

/-- BSWAP64 (R189). -/
def execBswap64 (s : State) : Host.Outcome State Fault Refusal := respond (byteSwap64 s.pins.a) errOk s

end Sys2Proof.Machine
end

