-- ==== Sys2Proof/Machine/SignNormalize.lean ====
section
/-! DEFINITION. The meanings of SEXT, NPOW2, CLZ and BITLEN (42_signext_normalize.md). -/

namespace Sys2Proof.Machine

/-- SEXT (R141). -/
def execSext (len : Nat) (s : State) : Host.Outcome State Fault Refusal :=
  respondIf (signWidthOk len) (signExtendLow s.pins.a len) s

/-- NPOW2 (R143): the wrap at the top edge is not reported. -/
def execNpow2 (s : State) : Host.Outcome State Fault Refusal := respond (nextPow2 s.pins.a) errOk s

/-- CLZ (R146). -/
def execClz (s : State) : Host.Outcome State Fault Refusal := respond (leadingZeros s.pins.a) errOk s

/-- BITLEN (R148). -/
def execBitlen (s : State) : Host.Outcome State Fault Refusal := respond (bitLength s.pins.a) errOk s

end Sys2Proof.Machine
end

