-- ==== Sys2Proof/Machine/Dispatch.lean ====
section
/-! DEFINITION. One arm per constructor of Instr (30_encoding.md R73). -/

namespace Sys2Proof.Machine

def exec (i : Instr) (s : State) : Host.Outcome State Fault Refusal :=
  match i with
  -- 41_bitfield.md
  | .mask len => Sys2Proof.Machine.execMask len s
  | .extract pos len => Sys2Proof.Machine.execExtract pos len s
  | .replace pos len => Sys2Proof.Machine.execReplace pos len s
  | .test pos => Sys2Proof.Machine.execTest pos s
  -- 42_signext_normalize.md
  | .sext len => Sys2Proof.Machine.execSext len s
  | .npow2 => Sys2Proof.Machine.execNpow2 s
  | .clz => Sys2Proof.Machine.execClz s
  | .bitlen => Sys2Proof.Machine.execBitlen s
  -- 43_rotate_permute.md
  | .rol32 len => Sys2Proof.Machine.execRol32 len s
  | .rol64 len => Sys2Proof.Machine.execRol64 len s
  | .revbits len => Sys2Proof.Machine.execRevbits len s
  | .bswap32 => Sys2Proof.Machine.execBswap32 s
  | .bswap64 => Sys2Proof.Machine.execBswap64 s
  -- 44_mulhigh.md
  | .mulh => Sys2Proof.Machine.execMulh s
  | .mulhu => Sys2Proof.Machine.execMulhu s
  | .mulhsu => Sys2Proof.Machine.execMulhsu s
  -- 30_encoding.md R66
  | .reserved op pos len => Sys2Proof.Machine.execReserved op pos len s

end Sys2Proof.Machine
end

