-- ==== Sys2Proof/Machine/Answer.lean ====
section
/-! DEFINITION. Answering the request on the pins (30_encoding.md R73), and the pure function `exec(CTL, A, B)` of
10_state.md R20 read off from it. -/

namespace Sys2Proof.Machine

/-- The signals settle on the current inputs (R28, R73): a presented request is decoded and run, a control word with a
reserved bit set gives ILLEGAL_OP (R67), and with no request presented there is no response. -/
def settle (s : State) : Host.Outcome State Fault Refusal :=
  if s.presents then
    match decode s.pins.ctl with
    | .ok i => exec i s
    | .error _ => raiseIllegalOp s
  else .next { s with front := none }

/-- The next state of an outcome, if it is one. -/
def nextState : Host.Outcome State Fault Refusal → Option State
  | .next s => some s
  | .fault _ => none
  | .refused _ => none

/-- A combinational unit (`LAT` = 0) whose inputs are CTL, A and B. -/
def probe (ctl : Ctl) (a b : Word) : State :=
  { lat := 0
    pins := { rst := false, reqValid := true, ctl := ctl, a := a, b := b }
    front := none
    slots := []
    inputs := [] }

/-- `exec(CTL, A, B)` of R20 and R73: the response of one request. -/
def answer (ctl : Ctl) (a b : Word) : Option Response := (nextState (settle (probe ctl a b))).bind (·.front)

/-- The response of one decoded operation on operands A and B. -/
def perform (i : Instr) (a b : Word) : Option Response := (nextState (exec i (probe 0 a b))).bind (·.front)

/-- The RESULT of one operation on operands A and B, when its ERR is OK. -/
def resultOf (i : Instr) (a b : Word) : Option Word :=
  (perform i a b).bind fun r => if r.err = errOk then some r.result else none

end Sys2Proof.Machine
end

