-- ==== Sys2Proof/Machine/Step.lean ====
section
/-! DEFINITION. One step: the rising edge, then the new inputs settle (10_state.md R28; log entry 1). -/

namespace Sys2Proof.Machine

/-- From one cycle to the next (`LAT` > 0), or from one settled input to the next (`LAT` = 0). -/
def step (s : State) : Host.Outcome State Fault Refusal := settle s.clockEdge

/-- The control word `w` stands in the request that the caller presents next: the next `step` takes it from the head of
`inputs`, runs it, and finds A and B as the caller drives them there (or holds them, when the list is empty). The unit
fetches nothing (R22); this stands for the caller presenting a request (log entry 9). -/
def State.withFetchWord (s : State) (nbits w : Nat) : State :=
  { s with
    inputs :=
      { s.nextPins with rst := false, reqValid := true, ctl := BitVec.ofNat 32 (w % 2 ^ nbits) } :: s.inputs.tail }

end Sys2Proof.Machine
end

