-- ==== Sys2Proof/Machine/Assembler.lean ====
section
/-! DEFINITION. The assembler syntax of a request (30_encoding.md R74) and the pseudo-operations (R75), on a line already cut
at its commas: a mnemonic and the arguments after it (log entry 15). `none` is a refusal of the assembler. -/

namespace Sys2Proof.Machine

/-- A request as the caller gives it (R60): an operation and the two data operands. An operand the operation ignores
(R68) stands as 0. -/
structure Call where
  op : Instr
  a : Word
  b : Word
deriving DecidableEq, Repr

/-- The control word of a request (R70). -/
def Call.ctl (c : Call) : Ctl := encode c.op

/-- The pseudo-operations (R75). -/
inductive Pseudo where
  | zext (len : Nat)
  | setbit (pos : Nat)
  | clrbit (pos : Nat)
  | ror32 (n : Nat)
  | ror64 (n : Nat)
deriving DecidableEq, Repr

/-- The condition of a pseudo-operation (R75). -/
def Pseudo.ok : Pseudo → Bool
  | .zext len => countOk len
  | .setbit pos => bitOk pos
  | .clrbit pos => bitOk pos
  | .ror32 n => rotateOk 32 n
  | .ror64 n => rotateOk 64 n

/-- The one request a pseudo-operation stands for, its condition holding (R75). -/
def Pseudo.call (p : Pseudo) (a : Word) : Call :=
  match p with
  | .zext len => { op := .extract 0 len, a := a, b := 0 }
  | .setbit pos => { op := .replace pos 1, a := a, b := 1 }
  | .clrbit pos => { op := .replace pos 1, a := a, b := 0 }
  | .ror32 n => { op := .rol32 ((32 - n) % 32), a := a, b := 0 }
  | .ror64 n => { op := .rol64 ((64 - n) % 64), a := a, b := 0 }

/-- "An assembler refuses a pseudo-operation whose condition fails" (R75). -/
def Pseudo.expand (p : Pseudo) (a : Word) : Option Call := if p.ok then some (p.call a) else none

/-- An argument of a line: a 64-bit value (written, or held by the caller under a name), or the text of a number (R74). -/
inductive AsmArg where
  | value (v : Word)
  | number (text : List Char)
deriving DecidableEq, Repr

/-- The value of a digit, decimal or hexadecimal of either case. -/
def digitValue (c : Char) : Option Nat :=
  if 48 ≤ c.toNat ∧ c.toNat ≤ 57 then some (c.toNat - 48)
  else if 65 ≤ c.toNat ∧ c.toNat ≤ 70 then some (c.toNat - 55)
  else if 97 ≤ c.toNat ∧ c.toNat ≤ 102 then some (c.toNat - 87)
  else none

/-- The number that digits of a base spell after the digits read so far. -/
def readDigits (base : Nat) : Nat → List Char → Option Nat
  | acc, [] => some acc
  | acc, c :: cs => (digitValue c).bind fun d => if d < base then readDigits base (acc * base + d) cs else none

/-- A number "written in decimal or with a 0x prefix" (R74). -/
def readNumber : List Char → Option Nat
  | [] => none
  | '0' :: 'x' :: c :: cs => readDigits 16 0 (c :: cs)
  | cs => readDigits 10 0 cs

/-- `pos` or `len`: a number in 0 to 127; "an assembler refuses any other value" (R74). -/
def readField (text : List Char) : Option Nat := (readNumber text).filter fieldFits

/-- Mnemonics are case-insensitive (R74): the upper-case form of a letter. -/
def upperCase (c : Char) : Char := if 97 ≤ c.toNat ∧ c.toNat ≤ 122 then Char.ofNat (c.toNat - 32) else c

/-- A line `MNEMONIC len`. -/
def asmCount (op : Nat → Instr) : List AsmArg → Option Call
  | [.number l] => (readField l).map fun len => { op := op len, a := 0, b := 0 }
  | _ => none

/-- A line `MNEMONIC A`. -/
def asmA (op : Instr) : List AsmArg → Option Call
  | [.value a] => some { op := op, a := a, b := 0 }
  | _ => none

/-- A line `MNEMONIC A, n`. -/
def asmACount (op : Nat → Instr) : List AsmArg → Option Call
  | [.value a, .number n] => (readField n).map fun k => { op := op k, a := a, b := 0 }
  | _ => none

/-- A line `MNEMONIC A, pos, len`. -/
def asmAField (op : Nat → Nat → Instr) : List AsmArg → Option Call
  | [.value a, .number p, .number l] =>
    (readField p).bind fun pos => (readField l).map fun len => { op := op pos len, a := a, b := 0 }
  | _ => none

/-- A line `MNEMONIC A, pos, len, B`. -/
def asmAFieldB (op : Nat → Nat → Instr) : List AsmArg → Option Call
  | [.value a, .number p, .number l, .value b] =>
    (readField p).bind fun pos => (readField l).map fun len => { op := op pos len, a := a, b := b }
  | _ => none

/-- A line `MNEMONIC A, B`. -/
def asmAB (op : Instr) : List AsmArg → Option Call
  | [.value a, .value b] => some { op := op, a := a, b := b }
  | _ => none

/-- A line of a pseudo-operation, `MNEMONIC A, n` (R75). -/
def asmPseudo (p : Nat → Pseudo) : List AsmArg → Option Call
  | [.value a, .number n] => (readNumber n).bind fun k => (p k).expand a
  | _ => none

/-- The syntaxes of R74 for the families 41 and 42. -/
def asmTableLow : List (List Char × (List AsmArg → Option Call)) :=
  [(['M', 'A', 'S', 'K'], asmCount .mask), (['E', 'X', 'T', 'R', 'A', 'C', 'T'], asmAField .extract),
   (['R', 'E', 'P', 'L', 'A', 'C', 'E'], asmAFieldB .replace), (['T', 'E', 'S', 'T'], asmACount .test),
   (['S', 'E', 'X', 'T'], asmACount .sext), (['N', 'P', 'O', 'W', '2'], asmA .npow2), (['C', 'L', 'Z'], asmA .clz),
   (['B', 'I', 'T', 'L', 'E', 'N'], asmA .bitlen)]

/-- The syntaxes of R74 for the families 43 and 44. -/
def asmTableHigh : List (List Char × (List AsmArg → Option Call)) :=
  [(['R', 'O', 'L', '3', '2'], asmACount .rol32), (['R', 'O', 'L', '6', '4'], asmACount .rol64),
   (['R', 'E', 'V', 'B', 'I', 'T', 'S'], asmACount .revbits), (['B', 'S', 'W', 'A', 'P', '3', '2'], asmA .bswap32),
   (['B', 'S', 'W', 'A', 'P', '6', '4'], asmA .bswap64), (['M', 'U', 'L', 'H'], asmAB .mulh),
   (['M', 'U', 'L', 'H', 'U'], asmAB .mulhu), (['M', 'U', 'L', 'H', 'S', 'U'], asmAB .mulhsu)]

/-- The syntaxes of R75. -/
def asmTablePseudo : List (List Char × (List AsmArg → Option Call)) :=
  [(['Z', 'E', 'X', 'T'], asmPseudo .zext), (['S', 'E', 'T', 'B', 'I', 'T'], asmPseudo .setbit),
   (['C', 'L', 'R', 'B', 'I', 'T'], asmPseudo .clrbit), (['R', 'O', 'R', '3', '2'], asmPseudo .ror32),
   (['R', 'O', 'R', '6', '4'], asmPseudo .ror64)]

/-- The request a line assembles to, or none where the assembler refuses it (R74, R75). -/
def assemble (mnemonic : List Char) (args : List AsmArg) : Option Call :=
  ((asmTableLow ++ asmTableHigh ++ asmTablePseudo).find? fun row => row.1 == mnemonic.map upperCase).bind
    fun row => row.2 args

end Sys2Proof.Machine
end

