-- ==== Sys2Proof/Safety.lean ====
section
/-! DEFINITION. What the statements say of a state and of a run: the invariant, the responses a run gives and the answers
its requests are due, what a safe use of a response is (70_reset_and_hazards.md R348), and which lines the assembler syntax
has (30_encoding.md R74, R75). -/

namespace Sys2Proof.Machine

/-- A response the unit can give (60_exceptions.md R301 to R303): ERR is never 0b11, and under an error RESULT is 0. -/
def Response.Given (r : Response) : Prop := r.err ≠ 3 ∧ (r.err ≠ errOk → r.result = 0)

/-- Every response in the machine, presented or in flight, is one the unit can give. -/
def State.ResponsesGiven (s : State) : Prop := ∀ r : Response, some r ∈ s.stages → r.Given

/-- The state is settled (10_state.md R28): to settle again on the same inputs changes nothing, so `front` is the answer to
the request that the pins present, or none. -/
def State.Settled (s : State) : Prop := settle s = .next s

/-- The invariant of the machine: `LAT` slots (10_state.md R26), settled signals (R28), and only responses the unit can
give (60_exceptions.md R301 to R303). -/
def State.Inv (s : State) : Prop := s.slots.length = s.lat ∧ s.Settled ∧ s.ResponsesGiven

/-- No reset is asserted in this cycle or in any cycle the caller's list still holds. -/
def State.NoResetAhead (s : State) : Prop := s.pins.rst = false ∧ ∀ p ∈ s.inputs, p.rst = false

/-- The responses presented in the next `n` cycles, this one first, in order. -/
def responsesIn : Nat → State → List Response
  | 0, _ => []
  | n + 1, s =>
    s.response.toList ++
      match step s with
      | .next t => responsesIn n t
      | .fault _ => []
      | .refused _ => []

/-- The answers due to the requests presented in the next `n` cycles, this one first, in the order of presentation: each
is `exec(CTL, A, B)` of its own request (10_state.md R20). -/
def answersDueIn : Nat → State → List Response
  | 0, _ => []
  | n + 1, s =>
    (if s.presents then (answer s.pins.ctl s.pins.a s.pins.b).toList else []) ++
      match step s with
      | .next t => answersDueIn n t
      | .fault _ => []
      | .refused _ => []

/-- The caller may use RESULT in this state (R348 (2), (3)): a response is presented and its ERR is OK. -/
def State.SafeToUse (s : State) : Prop := ∃ r : Response, s.response = some r ∧ r.err = errOk

/-! ### The lines of the assembler syntax (30_encoding.md R74, R75) -/

/-- The number that digits of a base spell, the most significant first. -/
def digitsValue (base : Nat) (digits : List Nat) : Nat := digits.foldl (fun v d => base * v + d) 0

/-- The text spells `n` "in decimal or with a 0x prefix" (R74), in at least one digit; a hexadecimal digit may be a letter
of either case, and leading zeros change nothing (log entry 15). -/
def NumberText (text : List Char) (n : Nat) : Prop :=
  ∃ digits : List Nat, digits ≠ [] ∧
    (((∀ d ∈ digits, d < 10) ∧ text = digits.map Nat.digitChar ∧ n = digitsValue 10 digits) ∨
      ((∀ d ∈ digits, d < 16) ∧ n = digitsValue 16 digits ∧
        ∃ cs : List Char, text = '0' :: 'x' :: cs ∧ cs.map Char.toLower = digits.map Nat.digitChar))

/-- The text of a `pos` or a `len`: a number in 0 to 127 (R74). -/
def FieldText (text : List Char) (n : Nat) : Prop := NumberText text n ∧ n ≤ 127

/-- The lines of the assembler, their mnemonics in upper case, each with the request it stands for: the sixteen syntaxes of
R74 and the five pseudo-operations of R75. -/
inductive SourceLine : List Char → List AsmArg → Call → Prop
  | mask {l : List Char} {len : Nat} : FieldText l len → SourceLine ['M', 'A', 'S', 'K'] [.number l] ⟨.mask len, 0, 0⟩
  | extract {a : Word} {p l : List Char} {pos len : Nat} : FieldText p pos → FieldText l len →
      SourceLine ['E', 'X', 'T', 'R', 'A', 'C', 'T'] [.value a, .number p, .number l] ⟨.extract pos len, a, 0⟩
  | replace {a b : Word} {p l : List Char} {pos len : Nat} : FieldText p pos → FieldText l len →
      SourceLine ['R', 'E', 'P', 'L', 'A', 'C', 'E'] [.value a, .number p, .number l, .value b] ⟨.replace pos len, a, b⟩
  | test {a : Word} {p : List Char} {pos : Nat} : FieldText p pos →
      SourceLine ['T', 'E', 'S', 'T'] [.value a, .number p] ⟨.test pos, a, 0⟩
  | sext {a : Word} {l : List Char} {len : Nat} : FieldText l len →
      SourceLine ['S', 'E', 'X', 'T'] [.value a, .number l] ⟨.sext len, a, 0⟩
  | npow2 {a : Word} : SourceLine ['N', 'P', 'O', 'W', '2'] [.value a] ⟨.npow2, a, 0⟩
  | clz {a : Word} : SourceLine ['C', 'L', 'Z'] [.value a] ⟨.clz, a, 0⟩
  | bitlen {a : Word} : SourceLine ['B', 'I', 'T', 'L', 'E', 'N'] [.value a] ⟨.bitlen, a, 0⟩
  | rol32 {a : Word} {l : List Char} {len : Nat} : FieldText l len →
      SourceLine ['R', 'O', 'L', '3', '2'] [.value a, .number l] ⟨.rol32 len, a, 0⟩
  | rol64 {a : Word} {l : List Char} {len : Nat} : FieldText l len →
      SourceLine ['R', 'O', 'L', '6', '4'] [.value a, .number l] ⟨.rol64 len, a, 0⟩
  | revbits {a : Word} {l : List Char} {len : Nat} : FieldText l len →
      SourceLine ['R', 'E', 'V', 'B', 'I', 'T', 'S'] [.value a, .number l] ⟨.revbits len, a, 0⟩
  | bswap32 {a : Word} : SourceLine ['B', 'S', 'W', 'A', 'P', '3', '2'] [.value a] ⟨.bswap32, a, 0⟩
  | bswap64 {a : Word} : SourceLine ['B', 'S', 'W', 'A', 'P', '6', '4'] [.value a] ⟨.bswap64, a, 0⟩
  | mulh {a b : Word} : SourceLine ['M', 'U', 'L', 'H'] [.value a, .value b] ⟨.mulh, a, b⟩
  | mulhu {a b : Word} : SourceLine ['M', 'U', 'L', 'H', 'U'] [.value a, .value b] ⟨.mulhu, a, b⟩
  | mulhsu {a b : Word} : SourceLine ['M', 'U', 'L', 'H', 'S', 'U'] [.value a, .value b] ⟨.mulhsu, a, b⟩
  | zext {a : Word} {t : List Char} {len : Nat} {c : Call} : NumberText t len → (Pseudo.zext len).expand a = some c →
      SourceLine ['Z', 'E', 'X', 'T'] [.value a, .number t] c
  | setbit {a : Word} {t : List Char} {pos : Nat} {c : Call} : NumberText t pos → (Pseudo.setbit pos).expand a = some c →
      SourceLine ['S', 'E', 'T', 'B', 'I', 'T'] [.value a, .number t] c
  | clrbit {a : Word} {t : List Char} {pos : Nat} {c : Call} : NumberText t pos → (Pseudo.clrbit pos).expand a = some c →
      SourceLine ['C', 'L', 'R', 'B', 'I', 'T'] [.value a, .number t] c
  | ror32 {a : Word} {t : List Char} {n : Nat} {c : Call} : NumberText t n → (Pseudo.ror32 n).expand a = some c →
      SourceLine ['R', 'O', 'R', '3', '2'] [.value a, .number t] c
  | ror64 {a : Word} {t : List Char} {n : Nat} {c : Call} : NumberText t n → (Pseudo.ror64 n).expand a = some c →
      SourceLine ['R', 'O', 'R', '6', '4'] [.value a, .number t] c

end Sys2Proof.Machine
end

