-- ==== Sys2Proof/Certificates/Slice0/Obligations.lean ====
section
/-! DEFINITION. The statements for the provers. Every statement about a response is made for every `LAT` and for every state
of the slots, of the other signals and of what the caller drives later; nothing here rests on `Config.resetLat`.
Where a request completes, the next state is written out whole, so that everything but `front` is stated unchanged. -/

open Sys2Proof Sys2Proof.Machine

/-! ### Encoding -/

/-- R61, R62, R65, R66, R70: decoding the control word of a well-formed instruction gives it back, with every operand. -/
def Obligations.DecodeOfEncodeIsTheInstruction : Prop :=
  ∀ i : Instr, i.wf = true → decode (encode i) = .ok i

/-- R63, R68, R70: whatever control word an instruction is decoded from, the instruction is well-formed, and encoding it
gives that word back in every bit but those of the ignored fields, which become 0. -/
def Obligations.EncodeOfDecodeKeepsEveryUsedBit : Prop :=
  ∀ (ctl : Ctl) (i : Instr), decode ctl = .ok i →
    i.wf = true ∧ encode i = ctl &&& (0xFFF8001F ||| i.usedFields)

/-- R61, R62, R70: `encode(op, pos, len)` is the spec's number, and the fields of R61 read `op`, `pos`, `len` and zero. -/
def Obligations.EncodedFieldsReadBack : Prop :=
  ∀ op pos len : Nat, op ≤ 31 → pos ≤ 127 → len ≤ 127 →
    (encodeFields op pos len).toNat = len * 2 ^ 12 + pos * 2 ^ 5 + op ∧
    ((encodeFields op pos len).extractLsb' 0 5).toNat = op ∧
    ((encodeFields op pos len).extractLsb' 5 7).toNat = pos ∧
    ((encodeFields op pos len).extractLsb' 12 7).toNat = len ∧
    (encodeFields op pos len).extractLsb' 19 13 = 0

/-- R71: the spec's example encodings, in both directions. -/
def Obligations.ExampleEncodings : Prop :=
  (encode (.mask 10) = 0x0000A000 ∧ decode 0x0000A000 = .ok (.mask 10)) ∧
  (encode (.extract 20 12) = 0x0000C281 ∧ decode 0x0000C281 = .ok (.extract 20 12)) ∧
  (encode (.replace 8 4) = 0x00004102 ∧ decode 0x00004102 = .ok (.replace 8 4)) ∧
  (encode (.test 63) = 0x000007E3 ∧ decode 0x000007E3 = .ok (.test 63)) ∧
  (encode (.sext 20) = 0x00014004 ∧ decode 0x00014004 = .ok (.sext 20)) ∧
  (encode .npow2 = 0x00000005 ∧ decode 0x00000005 = .ok .npow2) ∧
  (encode (.rol32 1) = 0x00001008 ∧ decode 0x00001008 = .ok (.rol32 1)) ∧
  (encode (.rol64 63) = 0x0003F009 ∧ decode 0x0003F009 = .ok (.rol64 63)) ∧
  (encode (.revbits 4) = 0x0000400A ∧ decode 0x0000400A = .ok (.revbits 4)) ∧
  (encode .mulhsu = 0x0000000F ∧ decode 0x0000000F = .ok .mulhsu)

/-- R66, R67, R69, R72: every control word decodes to one instruction of its own `op`, or is rejected because a reserved
bit is set; and every control word, with any operands, has a response. -/
def Obligations.EveryControlWordIsDecodedAndAnswered : Prop :=
  ∀ ctl : Ctl,
    (ctl.extractLsb' 19 13 ≠ 0 ∧ decode ctl = .error (.reservedBits (ctl.extractLsb' 19 13)) ∨
      ctl.extractLsb' 19 13 = 0 ∧ ∃ i : Instr, decode ctl = .ok i ∧ i.opNumber = (ctl.extractLsb' 0 5).toNat) ∧
    ∀ a b : Word, ∃ r : Response, answer ctl a b = some r

/-- R65 and spec/opcode_table.json: a control word that matches a row decodes to that row's operation, one that decodes
matches a row, and no control word matches two rows. -/
def Obligations.OpcodeTableRowsDecode : Prop :=
  (∀ (ctl : Ctl) (row : OpRow), row ∈ opcodeTable → row.accepts ctl = true →
    ∃ i : Instr, decode ctl = .ok i ∧ i.mnemonic = row.mnemonic) ∧
  (∀ (ctl : Ctl) (i : Instr), decode ctl = .ok i →
    ∃ row ∈ opcodeTable, row.accepts ctl = true ∧ row.mnemonic = i.mnemonic) ∧
  (∀ (ctl : Ctl) (row row' : OpRow), row ∈ opcodeTable → row' ∈ opcodeTable →
    row.accepts ctl = true → row'.accepts ctl = true → row = row')

/-- R68: the inputs an operation ignores change neither RESULT nor ERR, whatever they hold. -/
def Obligations.IgnoredInputsChangeNothing : Prop :=
  ∀ (pos len pos' len' : Nat) (a a' b b' : Word), pos ≤ 127 → len ≤ 127 → pos' ≤ 127 → len' ≤ 127 →
    answer (encodeFields 0 pos len) a b = answer (encodeFields 0 pos' len) a' b' ∧
    answer (encodeFields 1 pos len) a b = answer (encodeFields 1 pos len) a b' ∧
    answer (encodeFields 3 pos len) a b = answer (encodeFields 3 pos len') a b' ∧
    (∀ op : Nat, op = 4 ∨ op = 9 ∨ op = 10 →
      answer (encodeFields op pos len) a b = answer (encodeFields op pos' len) a b') ∧
    (∀ op : Nat, op = 5 ∨ op = 6 ∨ op = 7 ∨ op = 12 →
      answer (encodeFields op pos len) a b = answer (encodeFields op pos' len') a b') ∧
    (a.extractLsb' 0 32 = a'.extractLsb' 0 32 →
      answer (encodeFields 8 pos len) a b = answer (encodeFields 8 pos' len) a' b' ∧
      answer (encodeFields 11 pos len) a b = answer (encodeFields 11 pos' len') a' b') ∧
    (∀ op : Nat, op = 13 ∨ op = 14 ∨ op = 15 →
      answer (encodeFields op pos len) a b = answer (encodeFields op pos' len') a b)

/-! ### A step, a request, a response -/

/-- R28, R73: when the caller presents a request whose control word decodes to `i`, a step is `exec i` in the state after
the rising edge: the pins hold that request, the slots have moved on by one (or are all cleared, at a reset edge), and the
caller's list is one shorter. With `LAT` = 0 every input is a request. The second part says the same of a table word. -/
def Obligations.StepRunsTheDecodedInstruction : Prop :=
  (∀ (s : State) (p : Pins) (rest : List Pins) (i : Instr), s.inputs = p :: rest →
    (p.reqValid = true ∧ p.rst = false ∨ s.lat = 0) → decode p.ctl = .ok i →
    step s = exec i
      { lat := s.lat, pins := p, front := none, inputs := rest
        slots := if s.pins.rst then List.replicate s.lat none else (s.front :: s.slots).take s.lat }) ∧
  (∀ (s : State) (w : Nat) (i : Instr), decodeTableWord 32 w = some i →
    step (s.withFetchWord 32 w) = exec i
      { lat := s.lat, front := none, inputs := s.inputs.tail
        pins := { s.nextPins with rst := false, reqValid := true, ctl := BitVec.ofNat 32 w }
        slots := if s.pins.rst then List.replicate s.lat none else (s.front :: s.slots).take s.lat })

/-- R67, R302: a presented request with any bit of CTL[31:19] set is answered with RESULT 0 and ILLEGAL_OP, whatever its
other fields and operands, and nothing else is recorded. -/
def Obligations.ReservedBitsGiveIllegalOp : Prop :=
  ∀ (s : State) (p : Pins) (rest : List Pins), s.inputs = p :: rest →
    (p.reqValid = true ∧ p.rst = false ∨ s.lat = 0) → p.ctl.extractLsb' 19 13 ≠ 0 →
    step s = .next
      { lat := s.lat, pins := p, front := some ⟨0, 0b01⟩, inputs := rest
        slots := if s.pins.rst then List.replicate s.lat none else (s.front :: s.slots).take s.lat }

/-- R20, R44: the response to a presented request is `exec(CTL, A, B)` of that request alone, whatever the state; with
`LAT` > 0 an input that is no request (R28) gets none. -/
def Obligations.ResponseIsAFunctionOfTheRequestAlone : Prop :=
  ∀ (s : State) (p : Pins) (rest : List Pins), s.inputs = p :: rest →
    ∃ t : State, step s = .next t ∧
      ((p.reqValid = true ∧ p.rst = false ∨ s.lat = 0) → t.front = answer p.ctl p.a p.b ∧ t.front ≠ none) ∧
      (s.lat ≠ 0 → (p.reqValid = false ∨ p.rst = true) → t.front = none)

/-- R8, R72, R345: every step of every state completes, never a fault or a refusal; it takes one entry of the caller's
list, moves the slots on by one or clears them, and never changes `LAT` (R24). -/
def Obligations.EveryStepCompletes : Prop :=
  ∀ s : State, ∃ t : State, step s = .next t ∧ t.lat = s.lat ∧ t.pins = s.nextPins ∧ t.inputs = s.inputs.tail ∧
    t.slots = if s.pins.rst then List.replicate s.lat none else (s.front :: s.slots).take s.lat

/-- R20, R23, R305: every instruction completes in every state, and changes nothing but the presented request's response;
that response depends on A and B alone. -/
def Obligations.EveryInstructionChangesOnlyItsResponse : Prop :=
  ∀ (i : Instr) (s : State), ∃ r : Response, exec i s = .next { s with front := some r } ∧
    ∀ s' : State, s'.pins.a = s.pins.a → s'.pins.b = s.pins.b → exec i s' = .next { s' with front := some r }

/-- R30: after reset no slot is valid and `rsp_valid` = 0; the unit with `LAT` = 0 shows the response of its inputs. -/
def Obligations.ResetValues : Prop :=
  ∀ lat : Nat,
    (0 < lat → (State.resetWith lat).slots = List.replicate lat none ∧ (State.resetWith lat).rspValid = false) ∧
    (lat = 0 → (State.resetWith lat).response =
      answer (State.resetWith lat).pins.ctl (State.resetWith lat).pins.a (State.resetWith lat).pins.b)

/-- The state after reset, of any latency, has the invariant. -/
def Obligations.ResetHasTheInvariant : Prop := ∀ lat : Nat, (State.resetWith lat).Inv

/-- R26, R28, R301 to R303: from every state with the invariant, a step gives a state with it: `LAT` slots, settled
signals, and only responses the unit can give. -/
def Obligations.StepKeepsTheInvariant : Prop := ∀ s t : State, s.Inv → step s = .next t → t.Inv

/-- R343, R344, R345: with `LAT` > 0, `LAT` cycles after a cycle without reset the machine presents, with `rsp_valid` = 1,
the answer to the request presented in that cycle, and `rsp_valid` is 0 if none was, provided no reset edge falls between:
`rst` is 0 in the `LAT` - 1 cycles after it. -/
def Obligations.ResponseAppearsAfterExactlyLatCycles : Prop :=
  ∀ s : State, s.Inv → 0 < s.lat → s.pins.rst = false → (∀ p ∈ s.inputs.take (s.lat - 1), p.rst = false) →
    ∃ t : State, Sys2Proof.core.run s.lat s = .next t ∧
      (s.pins.reqValid = true → t.rspValid = true ∧ t.response = answer s.pins.ctl s.pins.a s.pins.b) ∧
      (s.pins.reqValid = false → t.rspValid = false)

/-- R341: `rst` = 1 in a cycle clears every slot at its edge and takes no request, whatever `req_valid` is; the response
presented in the cycle itself does not depend on `rst`; and from the next cycle on `rsp_valid` is 0 as long as no request
presented after that cycle has reached its `LAT` cycles. No assumption is made on what the slots held (R346). -/
def Obligations.ResetEdgeDiscardsEveryRequestInFlight : Prop :=
  ∀ s : State, 0 < s.lat → s.pins.rst = true →
    (∃ t : State, step s = .next t ∧ t.slots = List.replicate s.lat none) ∧
    ({ s with pins := { s.pins with rst := false } } : State).response = s.response ∧
    ∀ (k : Nat) (t : State), 1 ≤ k → Sys2Proof.core.run k s = .next t →
      (∀ (j : Nat) (u : State), 1 ≤ j → j + s.lat ≤ k → Sys2Proof.core.run j s = .next u → u.front = none) →
      t.rspValid = false

/-- R47, R344: after a reset (no slot valid) and with none to come, the responses presented in `n + LAT` cycles are the
answers to the requests presented in the first `n`, one each and in the same order. -/
def Obligations.ResponsesAnswerTheRequestsInOrder : Prop :=
  ∀ (s : State) (n : Nat), s.Inv → s.slots = List.replicate s.lat none → s.NoResetAhead →
    responsesIn (n + s.lat) s = answersDueIn n s

/-- R28, R340: with `LAT` = 0 the output is at all times the function of the inputs on the pins, in every state with the
invariant and after every step, whatever `rst` and `req_valid` would be. -/
def Obligations.CombinationalOutputFollowsTheInputs : Prop :=
  ∀ s : State, s.lat = 0 →
    (s.Inv → s.response = answer s.pins.ctl s.pins.a s.pins.b) ∧
    ∃ t : State, step s = .next t ∧ t.pins = s.nextPins ∧ t.response = answer t.pins.ctl t.pins.a t.pins.b ∧
      t.response ≠ none

/-- R301, R302, R303, R304: the ERR of every request. ILLEGAL_OP, with RESULT 0, exactly when CTL[31:19] is not 0 or `op` is
16 to 31, whatever `pos` and `len`; else DOMAIN, with RESULT 0, exactly when a condition of R303 holds; else OK. -/
def Obligations.ErrorCodeOfEveryRequest : Prop :=
  ∀ (ctl : Ctl) (a b : Word),
    ((ctl.extractLsb' 19 13 ≠ 0 ∨ 16 ≤ Ctl.op ctl) → answer ctl a b = some ⟨0, 0b01⟩) ∧
    (ctl.extractLsb' 19 13 = 0 → Ctl.op ctl < 16 →
      let outside : Prop :=
        (Ctl.op ctl = 0 ∧ 64 < Ctl.len ctl) ∨
        ((Ctl.op ctl = 1 ∨ Ctl.op ctl = 2) ∧
          (64 < Ctl.len ctl ∨ 64 < Ctl.pos ctl ∨ 64 < Ctl.pos ctl + Ctl.len ctl)) ∨
        (Ctl.op ctl = 3 ∧ 63 < Ctl.pos ctl) ∨
        (Ctl.op ctl = 4 ∧ (Ctl.len ctl = 0 ∨ 64 < Ctl.len ctl)) ∨
        (Ctl.op ctl = 8 ∧ 31 < Ctl.len ctl) ∨
        (Ctl.op ctl = 9 ∧ 63 < Ctl.len ctl) ∨
        (Ctl.op ctl = 10 ∧ 64 < Ctl.len ctl)
      (outside → answer ctl a b = some ⟨0, 0b10⟩) ∧
      (¬ outside → ∃ r : Word, answer ctl a b = some ⟨r, 0b00⟩))

/-- R306: after an erroring request every later one is answered exactly as if the erroring one had not been made: as when
its cycle had carried anything else instead, a request or none. Any number of cycles later, each stage that holds a later
input holds the same response in both runs; if the two cycles agree on `rst`, so does every stage but the erroring
request's own; and once that has left the last stage, the two machines are in one and the same state. -/
def Obligations.AnErrorChangesNoLaterAnswer : Prop :=
  ∀ (s : State) (p p' : Pins) (later : List Pins) (r : Response),
    answer p.ctl p.a p.b = some r → r.err ≠ 0b00 →
    ∃ t t' : State,
      Sys2Proof.core.run (later.length + 1) { s with inputs := p :: later } = .next t ∧
      Sys2Proof.core.run (later.length + 1) { s with inputs := p' :: later } = .next t' ∧
      (∀ q ∈ later.getLast?, t.pins = q ∧ t'.pins = q) ∧
      (∀ k : Nat, k < later.length → t.stages[k]? = t'.stages[k]?) ∧
      (p.rst = p'.rst → ∀ k : Nat, k ≠ later.length → t.stages[k]? = t'.stages[k]?) ∧
      (later ≠ [] → s.lat < later.length → t = t')

/-- R29, R314, R348 (2), (3): the caller's read stops while `rsp_valid` = 0, and otherwise gives the presented RESULT and
ERR; the use of RESULT stops under any ERR but OK, and gives RESULT exactly where it is safe to use. -/
def Obligations.ReadingWithoutAResponseIsAFault : Prop :=
  ∀ s : State,
    (s.rspValid = false → readResponse s = .fault .responseNotValid ∧ useResult s = .fault .responseNotValid) ∧
    (s.rspValid = true → ∃ r : Response, s.response = some r ∧ readResponse s = .next r ∧
      (r.err = 0b00 → useResult s = .next r.result) ∧
      (r.err ≠ 0b00 → ∃ f : Fault, useResult s = .fault f)) ∧
    (s.SafeToUse ↔ ∃ v : Word, useResult s = .next v)

/-! ### Bit-field operations -/

/-- R101, R102: MASK. -/
def Obligations.MaskAnswersTheLowOnes : Prop :=
  (∀ pos len : Nat, pos ≤ 127 → len ≤ 127 → decode (encodeFields 0 pos len) = .ok (.mask len)) ∧
  (∀ (s : State) (len : Nat), len ≤ 64 →
    ∃ r : Word, exec (.mask len) s = .next { s with front := some ⟨r, 0b00⟩ } ∧
      (∀ i : Nat, i < 64 → r.getLsbD i = decide (i < len)) ∧
      (len ≤ 63 → r = ((1 : Word) <<< len) - 1) ∧ (len = 64 → r = ~~~(0 : Word))) ∧
  (∀ (s : State) (len : Nat), 64 < len → exec (.mask len) s = .next { s with front := some ⟨0, 0b10⟩ })

/-- R103, R104: EXTRACT. -/
def Obligations.ExtractAnswersTheField : Prop :=
  (∀ pos len : Nat, pos ≤ 127 → len ≤ 127 → decode (encodeFields 1 pos len) = .ok (.extract pos len)) ∧
  (∀ (s : State) (pos len : Nat), pos + len ≤ 64 →
    ∃ r : Word, exec (.extract pos len) s = .next { s with front := some ⟨r, 0b00⟩ } ∧
      (∀ i : Nat, i < 64 → r.getLsbD i = (decide (i < len) && s.pins.a.getLsbD (pos + i))) ∧
      (1 ≤ len → r = (s.pins.a.extractLsb' pos len).setWidth 64)) ∧
  (∀ (s : State) (pos len : Nat), 64 < len ∨ 64 < pos ∨ 64 < pos + len →
    exec (.extract pos len) s = .next { s with front := some ⟨0, 0b10⟩ })

/-- R105: REPLACE. -/
def Obligations.ReplaceAnswersTheWordWithTheFieldReplaced : Prop :=
  (∀ pos len : Nat, pos ≤ 127 → len ≤ 127 → decode (encodeFields 2 pos len) = .ok (.replace pos len)) ∧
  (∀ (s : State) (pos len : Nat), pos + len ≤ 64 →
    ∃ r : Word, exec (.replace pos len) s = .next { s with front := some ⟨r, 0b00⟩ } ∧
      ∀ i : Nat, i < 64 →
        r.getLsbD i = if pos ≤ i ∧ i < pos + len then s.pins.b.getLsbD (i - pos) else s.pins.a.getLsbD i) ∧
  (∀ (s : State) (pos len : Nat), 64 < len ∨ 64 < pos ∨ 64 < pos + len →
    exec (.replace pos len) s = .next { s with front := some ⟨0, 0b10⟩ })

/-- R107: TEST. -/
def Obligations.TestAnswersTheBit : Prop :=
  (∀ pos len : Nat, pos ≤ 127 → len ≤ 127 → decode (encodeFields 3 pos len) = .ok (.test pos)) ∧
  (∀ (s : State) (pos : Nat), pos ≤ 63 →
    ∃ r : Word, exec (.test pos) s = .next { s with front := some ⟨r, 0b00⟩ } ∧
      r = (if s.pins.a.getLsbD pos then 1 else 0) ∧ resultOf (.extract pos 1) s.pins.a s.pins.b = some r) ∧
  (∀ (s : State) (pos : Nat), 63 < pos → exec (.test pos) s = .next { s with front := some ⟨0, 0b10⟩ })

/-- R106: REPLACE then EXTRACT at the same field gives the low bits of B, and the bits outside the field are A's. -/
def Obligations.ExtractAfterReplaceGivesTheReplacement : Prop :=
  ∀ (a b b' : Word) (pos len : Nat), pos + len ≤ 64 →
    ∃ r : Word, resultOf (.replace pos len) a b = some r ∧
      resultOf (.extract pos len) r b' = some (b &&& ones len) ∧
      r &&& ~~~(ones len <<< pos) = a &&& ~~~(ones len <<< pos)

/-- R103, R105: replacing a field by what EXTRACT reads there changes nothing. -/
def Obligations.ReplacingAFieldByItselfChangesNothing : Prop :=
  ∀ (a b : Word) (pos len : Nat), pos + len ≤ 64 →
    ∃ r : Word, resultOf (.extract pos len) a b = some r ∧ resultOf (.replace pos len) a r = some a

/-! ### Sign extension and normalization -/

/-- R141, R142: SEXT. -/
def Obligations.SextAnswersTheSignedField : Prop :=
  (∀ pos len : Nat, pos ≤ 127 → len ≤ 127 → decode (encodeFields 4 pos len) = .ok (.sext len)) ∧
  (∀ (s : State) (len : Nat), 1 ≤ len → len ≤ 64 →
    ∃ r : Word, exec (.sext len) s = .next { s with front := some ⟨r, 0b00⟩ } ∧
      r = (s.pins.a.extractLsb' 0 len).signExtend 64 ∧ r.toInt = (s.pins.a.extractLsb' 0 len).toInt ∧
      ∀ i : Nat, i < 64 → r.getLsbD i = s.pins.a.getLsbD (min i (len - 1))) ∧
  (∀ (s : State) (len : Nat), len = 0 ∨ 64 < len → exec (.sext len) s = .next { s with front := some ⟨0, 0b10⟩ })

/-- R143, R144: NPOW2. 0 passes through; up to 2^63 the result is the smallest power of two not below A; above, it wraps
to 0 with ERR OK; and for A neither 0 nor a power of two it is 1 shifted left by BITLEN(A). -/
def Obligations.Npow2AnswersTheNextPowerOfTwo : Prop :=
  (∀ pos len : Nat, pos ≤ 127 → len ≤ 127 → decode (encodeFields 5 pos len) = .ok .npow2) ∧
  (∀ s : State, ∃ r : Word, exec .npow2 s = .next { s with front := some ⟨r, 0b00⟩ } ∧
    (s.pins.a = 0 → r = 0) ∧
    (1 ≤ s.pins.a.toNat → s.pins.a.toNat ≤ 2 ^ 63 →
      ∃ k : Nat, k ≤ 63 ∧ r.toNat = 2 ^ k ∧ s.pins.a.toNat ≤ 2 ^ k ∧ ∀ j : Nat, s.pins.a.toNat ≤ 2 ^ j → k ≤ j) ∧
    (2 ^ 63 < s.pins.a.toNat → r = 0) ∧
    (s.pins.a ≠ 0 → (∀ k : Nat, s.pins.a.toNat ≠ 2 ^ k) →
      ∃ n : Word, resultOf .bitlen s.pins.a s.pins.b = some n ∧ r = (1 : Word) <<< n.toNat))

/-- R146: CLZ. 64 for A = 0, and 63 - k when k is the highest set bit. -/
def Obligations.ClzAnswersTheLeadingZeroCount : Prop :=
  (∀ pos len : Nat, pos ≤ 127 → len ≤ 127 → decode (encodeFields 6 pos len) = .ok .clz) ∧
  (∀ s : State, ∃ r : Word, exec .clz s = .next { s with front := some ⟨r, 0b00⟩ } ∧
    (s.pins.a = 0 → r = 64) ∧
    ∀ k : Nat, k ≤ 63 → s.pins.a.getLsbD k = true → (∀ j : Nat, k < j → s.pins.a.getLsbD j = false) →
      r.toNat = 63 - k)

/-- R148: BITLEN. 0 for A = 0, and k + 1 when k is the highest set bit. -/
def Obligations.BitlenAnswersTheBitLength : Prop :=
  (∀ pos len : Nat, pos ≤ 127 → len ≤ 127 → decode (encodeFields 7 pos len) = .ok .bitlen) ∧
  (∀ s : State, ∃ r : Word, exec .bitlen s = .next { s with front := some ⟨r, 0b00⟩ } ∧
    (s.pins.a = 0 → r = 0) ∧
    ∀ k : Nat, k ≤ 63 → s.pins.a.getLsbD k = true → (∀ j : Nat, k < j → s.pins.a.getLsbD j = false) →
      r.toNat = k + 1)

/-- R149: the relations among CLZ, BITLEN and the logarithm. -/
def Obligations.BitlenAndClzSumTo64 : Prop :=
  ∀ a b : Word, ∃ n z : Word, resultOf .bitlen a b = some n ∧ resultOf .clz a b = some z ∧
    n.toNat + z.toNat = 64 ∧
    (a ≠ 0 → Nat.log2 a.toNat = n.toNat - 1 ∧ Nat.log2 a.toNat = 63 - z.toNat ∧
      a.toNat < 2 ^ n.toNat ∧ 2 ^ (n.toNat - 1) ≤ a.toNat)

/-! ### Rotates, bit reverse and byte-swaps -/

/-- R180, R181: ROL32. Bit i of the result is bit i - len, modulo 32, of A[31:0]; RESULT[63:32] is 0. -/
def Obligations.Rol32RotatesTheLowHalf : Prop :=
  (∀ pos len : Nat, pos ≤ 127 → len ≤ 127 → decode (encodeFields 8 pos len) = .ok (.rol32 len)) ∧
  (∀ (s : State) (len : Nat), len ≤ 31 →
    ∃ r : Word, exec (.rol32 len) s = .next { s with front := some ⟨r, 0b00⟩ } ∧
      (∀ i : Nat, i < 32 → r.getLsbD i = s.pins.a.getLsbD ((i + 32 - len) % 32)) ∧
      ∀ i : Nat, 32 ≤ i → r.getLsbD i = false) ∧
  (∀ (s : State) (len : Nat), 31 < len → exec (.rol32 len) s = .next { s with front := some ⟨0, 0b10⟩ })

/-- R180, R183: ROL64. Bit i of the result is bit i - len, modulo 64, of A. -/
def Obligations.Rol64RotatesTheWord : Prop :=
  (∀ pos len : Nat, pos ≤ 127 → len ≤ 127 → decode (encodeFields 9 pos len) = .ok (.rol64 len)) ∧
  (∀ (s : State) (len : Nat), len ≤ 63 →
    ∃ r : Word, exec (.rol64 len) s = .next { s with front := some ⟨r, 0b00⟩ } ∧
      ∀ i : Nat, i < 64 → r.getLsbD i = s.pins.a.getLsbD ((i + 64 - len) % 64)) ∧
  (∀ (s : State) (len : Nat), 63 < len → exec (.rol64 len) s = .next { s with front := some ⟨0, 0b10⟩ })

/-- R185: REVBITS. Bit i of the result, below len, is bit len - 1 - i of A; every bit at and above len is 0. -/
def Obligations.RevbitsReversesTheLowBits : Prop :=
  (∀ pos len : Nat, pos ≤ 127 → len ≤ 127 → decode (encodeFields 10 pos len) = .ok (.revbits len)) ∧
  (∀ (s : State) (len : Nat), len ≤ 64 →
    ∃ r : Word, exec (.revbits len) s = .next { s with front := some ⟨r, 0b00⟩ } ∧
      ∀ i : Nat, i < 64 → r.getLsbD i = (decide (i < len) && s.pins.a.getLsbD (len - 1 - i))) ∧
  (∀ (s : State) (len : Nat), 64 < len → exec (.revbits len) s = .next { s with front := some ⟨0, 0b10⟩ })

/-- R187: BSWAP32. Byte k of A[31:0] is byte 3 - k of RESULT, and RESULT[63:32] is 0. -/
def Obligations.Bswap32ReversesFourBytes : Prop :=
  (∀ pos len : Nat, pos ≤ 127 → len ≤ 127 → decode (encodeFields 11 pos len) = .ok .bswap32) ∧
  (∀ s : State, ∃ r : Word, exec .bswap32 s = .next { s with front := some ⟨r, 0b00⟩ } ∧
    (∀ k : Nat, k ≤ 3 → r.extractLsb' (8 * (3 - k)) 8 = s.pins.a.extractLsb' (8 * k) 8) ∧
    r.extractLsb' 32 32 = 0)

/-- R189: BSWAP64. Byte k of A is byte 7 - k of RESULT. -/
def Obligations.Bswap64ReversesEightBytes : Prop :=
  (∀ pos len : Nat, pos ≤ 127 → len ≤ 127 → decode (encodeFields 12 pos len) = .ok .bswap64) ∧
  (∀ s : State, ∃ r : Word, exec .bswap64 s = .next { s with front := some ⟨r, 0b00⟩ } ∧
    ∀ k : Nat, k ≤ 7 → r.extractLsb' (8 * (7 - k)) 8 = s.pins.a.extractLsb' (8 * k) 8)

/-- R182: two ROL32 compose, its bits, and the right rotation; results read in their low 32 bits. -/
def Obligations.Rol32Composes : Prop :=
  ∀ (a b : Word) (m n : Nat), m ≤ 31 → n ≤ 31 →
    ∃ x y z u : Word, resultOf (.rol32 m) a b = some x ∧ resultOf (.rol32 n) x b = some y ∧
      resultOf (.rol32 ((m + n) % 32)) a b = some z ∧ y.extractLsb' 0 32 = z.extractLsb' 0 32 ∧
      (∀ i : Nat, i ≤ 31 → x.getLsbD i = a.getLsbD ((i + 32 - m) % 32)) ∧
      resultOf (.rol32 ((32 - n) % 32)) a b = some u ∧
      u.extractLsb' 0 32 = (a.extractLsb' 0 32).rotateRight n

/-- R184: two ROL64 compose, its bits, and the right rotation. -/
def Obligations.Rol64Composes : Prop :=
  ∀ (a b : Word) (m n : Nat), m ≤ 63 → n ≤ 63 →
    ∃ x y : Word, resultOf (.rol64 m) a b = some x ∧ resultOf (.rol64 n) x b = some y ∧
      resultOf (.rol64 ((m + n) % 64)) a b = some y ∧
      (∀ i : Nat, i ≤ 63 → x.getLsbD i = a.getLsbD ((i + 64 - m) % 64)) ∧
      resultOf (.rol64 ((64 - n) % 64)) a b = some (a.rotateRight n)

/-- R186: reversing twice gives the low `len` bits, and REVBITS of 64 bits reverses the whole word. -/
def Obligations.RevbitsTwiceGivesTheLowBits : Prop :=
  (∀ (a b : Word) (len : Nat), len ≤ 64 →
    ∃ r : Word, resultOf (.revbits len) a b = some r ∧ resultOf (.revbits len) r b = some (a &&& ones len)) ∧
  (∀ a b : Word, ∃ r : Word, resultOf (.revbits 64) a b = some r ∧
    ∀ i : Nat, i ≤ 63 → r.getLsbD i = a.getLsbD (63 - i))

/-- R188, R190: the byte-swaps' round trips, and BSWAP64 from two BSWAP32. -/
def Obligations.ByteSwapsRoundTrip : Prop :=
  ∀ a b : Word,
    (∃ r : Word, resultOf .bswap32 a b = some r ∧
      resultOf .bswap32 r b = some ((a.extractLsb' 0 32).setWidth 64)) ∧
    (∃ r : Word, resultOf .bswap64 a b = some r ∧ resultOf .bswap64 r b = some a) ∧
    (∃ r lo hi : Word, resultOf .bswap64 a b = some r ∧ resultOf .bswap32 a b = some lo ∧
      resultOf .bswap32 (a >>> 32) b = some hi ∧ r = lo.extractLsb' 0 32 ++ hi.extractLsb' 0 32)

/-! ### Wide multiplication, high part -/

/-- R221, R222: MULH. -/
def Obligations.MulhAnswersTheSignedHighPart : Prop :=
  (∀ pos len : Nat, pos ≤ 127 → len ≤ 127 → decode (encodeFields 13 pos len) = .ok .mulh) ∧
  (∀ s : State, ∃ r : Word, exec .mulh s = .next { s with front := some ⟨r, 0b00⟩ } ∧
    r.toInt = s.pins.a.toInt * s.pins.b.toInt / 2 ^ 64 ∧ -(2 ^ 62) ≤ r.toInt ∧ r.toInt ≤ 2 ^ 62)

/-- R223, R224: MULHU. -/
def Obligations.MulhuAnswersTheUnsignedHighPart : Prop :=
  (∀ pos len : Nat, pos ≤ 127 → len ≤ 127 → decode (encodeFields 14 pos len) = .ok .mulhu) ∧
  (∀ s : State, ∃ r : Word, exec .mulhu s = .next { s with front := some ⟨r, 0b00⟩ } ∧
    r.toNat = s.pins.a.toNat * s.pins.b.toNat / 2 ^ 64 ∧ r.toNat ≤ 2 ^ 64 - 2)

/-- R225: MULHSU, A being the signed operand; for A with A[63] = 0 it is MULHU. -/
def Obligations.MulhsuAnswersTheMixedHighPart : Prop :=
  (∀ pos len : Nat, pos ≤ 127 → len ≤ 127 → decode (encodeFields 15 pos len) = .ok .mulhsu) ∧
  (∀ s : State, ∃ r : Word, exec .mulhsu s = .next { s with front := some ⟨r, 0b00⟩ } ∧
    r.toInt = s.pins.a.toInt * (s.pins.b.toNat : Int) / 2 ^ 64 ∧
    (s.pins.a.getLsbD 63 = false → resultOf .mulhu s.pins.a s.pins.b = some r))

/-- R220, R229: each result is bits [127:64] of the exact product as a 128-bit word. -/
def Obligations.HighPartsAreTheUpperHalfOfTheProduct : Prop :=
  ∀ a b : Word,
    resultOf .mulh a b = some ((BitVec.ofInt 128 (a.toInt * b.toInt)).extractLsb' 64 64) ∧
    resultOf .mulhu a b = some ((BitVec.ofInt 128 ((a.toNat : Int) * (b.toNat : Int))).extractLsb' 64 64) ∧
    resultOf .mulhsu a b = some ((BitVec.ofInt 128 (a.toInt * (b.toNat : Int))).extractLsb' 64 64)

/-- R226: the signed high words from the unsigned one. -/
def Obligations.SignedHighPartsAreCorrectionsOfTheUnsigned : Prop :=
  ∀ a b : Word, ∃ u : Word, resultOf .mulhu a b = some u ∧
    resultOf .mulhsu a b = some (u - (if a.getLsbD 63 then b else 0)) ∧
    resultOf .mulh a b = some (u - (if a.getLsbD 63 then b else 0) - (if b.getLsbD 63 then a else 0))

/-- R227, R228: the portable decomposition into 32-bit halves gives MULHU exactly, and with the corrections of R226 MULH and
MULHSU: no result depends on which of the two structures `MUL_IMPL` builds. -/
def Obligations.PortableDecompositionEqualsTheProduct : Prop :=
  ∀ a b : Word,
    resultOf .mulhu a b = some (mulhuPortable a b) ∧
    resultOf .mulhsu a b = some (mulhsuPortable a b) ∧
    resultOf .mulh a b = some (mulhPortable a b)

/-! ### Reserved operations, and the assembler -/

/-- R66: `op` 16 to 31 selects no operation and gives ILLEGAL_OP, whatever `pos` and `len`. -/
def Obligations.ReservedOperationsGiveIllegalOp : Prop :=
  ∀ (s : State) (op pos len : Nat), 16 ≤ op → op ≤ 31 → pos ≤ 127 → len ≤ 127 →
    decode (encodeFields op pos len) = .ok (.reserved op pos len) ∧
    exec (.reserved op pos len) s = .next { s with front := some ⟨0, 0b01⟩ }

/-- R75: each pseudo-operation expands to its one request when its condition holds and is refused otherwise, and what the
requests compute: ZEXT the zero-extended low bits, SETBIT and CLRBIT the word with one bit changed, ROR32 and ROR64 the
right rotations. -/
def Obligations.PseudoOperationsExpandToOneRequest : Prop :=
  ∀ a b : Word,
    (∀ len : Nat, (len ≤ 64 → (Pseudo.zext len).expand a = some ⟨.extract 0 len, a, 0⟩ ∧
        resultOf (.extract 0 len) a b = some ((a.extractLsb' 0 len).setWidth 64)) ∧
      (64 < len → (Pseudo.zext len).expand a = none)) ∧
    (∀ pos : Nat, (pos ≤ 63 → (Pseudo.setbit pos).expand a = some ⟨.replace pos 1, a, 1⟩ ∧
        resultOf (.replace pos 1) a 1 = some (a ||| ((1 : Word) <<< pos))) ∧
      (63 < pos → (Pseudo.setbit pos).expand a = none)) ∧
    (∀ pos : Nat, (pos ≤ 63 → (Pseudo.clrbit pos).expand a = some ⟨.replace pos 1, a, 0⟩ ∧
        resultOf (.replace pos 1) a 0 = some (a &&& ~~~((1 : Word) <<< pos))) ∧
      (63 < pos → (Pseudo.clrbit pos).expand a = none)) ∧
    (∀ n : Nat, (n ≤ 31 → (Pseudo.ror32 n).expand a = some ⟨.rol32 ((32 - n) % 32), a, 0⟩ ∧
        resultOf (.rol32 ((32 - n) % 32)) a b = some (((a.extractLsb' 0 32).rotateRight n).setWidth 64)) ∧
      (31 < n → (Pseudo.ror32 n).expand a = none)) ∧
    (∀ n : Nat, (n ≤ 63 → (Pseudo.ror64 n).expand a = some ⟨.rol64 ((64 - n) % 64), a, 0⟩ ∧
        resultOf (.rol64 ((64 - n) % 64)) a b = some (a.rotateRight n)) ∧
      (63 < n → (Pseudo.ror64 n).expand a = none))

/-- R74, R75: the assembler accepts exactly the lines of the sixteen syntaxes and of the five pseudo-operations, the letters
of a mnemonic of either case, and a line assembles to the operation it names with the fields and operands it gives, or to the
expansion of its pseudo-operation; what it accepts is well-formed, and its control word decodes to that operation. Which
texts spell a number (letter case, leading zeros) is the model's choice (log entry 15). -/
def Obligations.AssemblerAcceptsExactlyTheLinesOfItsSyntax : Prop :=
  ∀ (mnemonic : List Char) (args : List AsmArg) (c : Call),
    (assemble mnemonic args = some c ↔ SourceLine (mnemonic.map Char.toUpper) args c) ∧
    (assemble mnemonic args = some c → c.op.wf = true ∧ decode c.ctl = .ok c.op)

/-- R74, R75: a line with a number that is not in 0 to 127, or with a text that spells no number, is refused, whatever its
mnemonic and wherever the number stands. Which texts spell a number (letter case, leading zeros) is the model's choice
(log entry 15). -/
def Obligations.AssemblerRefusesEveryNumberOutOfRange : Prop :=
  ∀ (mnemonic : List Char) (args : List AsmArg) (text : List Char), AsmArg.number text ∈ args →
    (∀ n : Nat, n ≤ 127 → ¬ NumberText text n) → assemble mnemonic args = none

/-- R75: a line of a pseudo-operation, in either letter case, gives its expansion, which is refused where its condition fails
(PseudoOperationsExpandToOneRequest says what each expansion is). -/
def Obligations.PseudoLinesGiveTheirExpansion : Prop :=
  ∀ (m : List Char) (a : Word) (t : List Char) (n : Nat), NumberText t n →
    (m.map Char.toUpper = ['Z', 'E', 'X', 'T'] → assemble m [.value a, .number t] = (Pseudo.zext n).expand a) ∧
    (m.map Char.toUpper = ['S', 'E', 'T', 'B', 'I', 'T'] →
      assemble m [.value a, .number t] = (Pseudo.setbit n).expand a) ∧
    (m.map Char.toUpper = ['C', 'L', 'R', 'B', 'I', 'T'] →
      assemble m [.value a, .number t] = (Pseudo.clrbit n).expand a) ∧
    (m.map Char.toUpper = ['R', 'O', 'R', '3', '2'] → assemble m [.value a, .number t] = (Pseudo.ror32 n).expand a) ∧
    (m.map Char.toUpper = ['R', 'O', 'R', '6', '4'] → assemble m [.value a, .number t] = (Pseudo.ror64 n).expand a)
end

