-- ==== Sys2Proof/Laws/Assembler.lean ====
section
/-! SUPPORT. What the assembler reads: `readNumber` accepts exactly the texts of `NumberText` with the number they spell, and
`readField` those of `FieldText` (30_encoding.md R74); the model's upper-case form of a letter is Lean's. -/

namespace Sys2Proof.Machine

theorem char_eq_of_toNat {c : Char} {n : Nat} {d : Char} (h : c.toNat = n) (hd : d.toNat = n) : c = d :=
  Char.ext (UInt32.toNat_inj.mp (h.trans hd.symm))

theorem toNat_toLower (c : Char) :
    c.toLower.toNat = if 65 ≤ c.toNat ∧ c.toNat ≤ 90 then c.toNat + 32 else c.toNat := by
  have e : ('A'.val ≤ c.val ∧ c.val ≤ 'Z'.val) ↔ 65 ≤ c.toNat ∧ c.toNat ≤ 90 := Iff.rfl
  by_cases h : 65 ≤ c.toNat ∧ c.toNat ≤ 90
  · rw [if_pos h, Char.toLower, dif_pos (e.mpr h)]
    have hk : ('a'.val - 'A'.val).toNat = 32 := by decide
    rw [Char.toNat, UInt32.toNat_add, hk, Char.toNat]
    have : c.val.toNat ≤ 90 := h.2
    omega
  · rw [if_neg h, Char.toLower, dif_neg fun k => h (e.mp k)]

theorem toNat_digitChar {d : Nat} (h : d < 16) : (Nat.digitChar d).toNat = if d < 10 then d + 48 else d + 87 :=
  (by decide : ∀ d < 16, (Nat.digitChar d).toNat = if d < 10 then d + 48 else d + 87) d h

/-- The digit a character is: a hexadecimal digit in either letter case. -/
theorem digitValue_eq_some_iff (c : Char) (d : Nat) : digitValue c = some d ↔ d < 16 ∧ c.toLower = Nat.digitChar d := by
  have key : d < 16 → (c.toLower = Nat.digitChar d ↔ c.toLower.toNat = if d < 10 then d + 48 else d + 87) := fun h => by
    rw [← toNat_digitChar h]
    exact ⟨congrArg _, fun h => char_eq_of_toNat h rfl⟩
  rw [and_congr_right key, toNat_toLower]
  unfold digitValue
  by_cases h1 : d < 10 <;> simp only [h1, if_true, if_false] <;> repeat' split
  all_goals simp only [Option.some.injEq, reduceCtorEq, false_iff, not_and]
  all_goals clear key; omega

/-- All that `readDigits` can answer: the digits, each below the base, folded from the left. -/
theorem readDigits_eq_some_iff (base : Nat) : ∀ (cs : List Char) (acc n : Nat), readDigits base acc cs = some n ↔
    ∃ ds : List Nat, cs.map digitValue = ds.map some ∧ (∀ d ∈ ds, d < base) ∧
      n = ds.foldl (fun v d => base * v + d) acc
  | [], acc, n => by
    simp only [readDigits, List.map_nil, Option.some.injEq]
    constructor
    · rintro rfl; exact ⟨[], by simp⟩
    · rintro ⟨ds, h, -, h2⟩
      have : ds = [] := by simpa using h.symm
      simp [this] at h2; exact h2.symm
  | c :: cs, acc, n => by
    simp only [readDigits, Option.bind_eq_some_iff]
    constructor
    · rintro ⟨d, hd, h⟩
      split at h
      · next hb =>
        obtain ⟨ds, h1, h2, h3⟩ := (readDigits_eq_some_iff base cs _ n).mp h
        exact ⟨d :: ds, by simp [hd, h1], by simp [hb]; exact h2, by simpa [Nat.mul_comm] using h3⟩
      · cases h
    · rintro ⟨_ | ⟨d, ds⟩, h1, h2, h3⟩
      · simp at h1
      · simp only [List.map_cons, List.cons.injEq] at h1
        refine ⟨d, h1.1, ?_⟩
        rw [if_pos (h2 d (by simp))]
        exact (readDigits_eq_some_iff base cs _ n).mpr
          ⟨ds, h1.2, fun e he => h2 e (by simp [he]), by simpa [Nat.mul_comm] using h3⟩

theorem map_digitValue_iff : ∀ (cs : List Char) (ds : List Nat), cs.map digitValue = ds.map some ↔
    (∀ d ∈ ds, d < 16) ∧ cs.map Char.toLower = ds.map Nat.digitChar
  | [], [] => by simp
  | [], _ :: _ => by simp
  | _ :: _, [] => by simp
  | c :: cs, d :: ds => by
    simp only [List.map_cons, List.cons.injEq, digitValue_eq_some_iff, map_digitValue_iff cs ds, List.forall_mem_cons]
    exact ⟨fun ⟨⟨h1, h2⟩, h3, h4⟩ => ⟨⟨h1, h3⟩, h2, h4⟩, fun ⟨⟨h1, h3⟩, h2, h4⟩ => ⟨⟨h1, h2⟩, h3, h4⟩⟩

theorem toLower_eq_digitChar_iff {d : Nat} (h : d < 10) (c : Char) :
    c.toLower = Nat.digitChar d ↔ c = Nat.digitChar d := by
  have e : ∀ c' : Char, c' = Nat.digitChar d ↔ c'.toNat = d + 48 := fun c' => by
    have := toNat_digitChar (show d < 16 by omega)
    rw [if_pos h] at this
    rw [← this]
    exact ⟨congrArg _, fun h => char_eq_of_toNat h rfl⟩
  rw [e, e, toNat_toLower]; split <;> omega

theorem map_toLower_decimal : ∀ (cs : List Char) (ds : List Nat), (∀ d ∈ ds, d < 10) →
    (cs.map Char.toLower = ds.map Nat.digitChar ↔ cs = ds.map Nat.digitChar)
  | [], [], _ => by simp
  | [], _ :: _, _ => by simp
  | _ :: _, [], _ => by simp
  | c :: cs, d :: ds, h => by
    simp only [List.forall_mem_cons] at h
    simp only [List.map_cons, List.cons.injEq, toLower_eq_digitChar_iff h.1, map_toLower_decimal cs ds h.2]

/-- The decimal half of `NumberText`. -/
theorem readDecimal_iff (cs : List Char) (n : Nat) : readDigits 10 0 cs = some n ↔
    ∃ ds : List Nat, (∀ d ∈ ds, d < 10) ∧ cs = ds.map Nat.digitChar ∧ n = digitsValue 10 ds := by
  rw [readDigits_eq_some_iff]
  refine exists_congr fun ds => ?_
  rw [map_digitValue_iff]
  constructor
  · rintro ⟨⟨-, h2⟩, h3, h4⟩; exact ⟨h3, (map_toLower_decimal cs ds h3).mp h2, h4⟩
  · rintro ⟨h1, h2, h3⟩
    exact ⟨⟨fun d hd => (h1 d hd).trans (by omega), (map_toLower_decimal cs ds h1).mpr h2⟩, h1, h3⟩

/-- The hexadecimal half of `NumberText`. -/
theorem readHex_iff (cs : List Char) (n : Nat) : readDigits 16 0 cs = some n ↔
    ∃ ds : List Nat, (∀ d ∈ ds, d < 16) ∧ cs.map Char.toLower = ds.map Nat.digitChar ∧ n = digitsValue 16 ds := by
  rw [readDigits_eq_some_iff]
  refine exists_congr fun ds => ?_
  rw [map_digitValue_iff]
  exact ⟨fun ⟨h, _, h'⟩ => ⟨h.1, h.2, h'⟩, fun ⟨h, h', h''⟩ => ⟨⟨h, h'⟩, h, h''⟩⟩

theorem x_not_decimal {ds : List Nat} {cs : List Char} (h : ∀ d ∈ ds, d < 10) :
    '0' :: 'x' :: cs ≠ ds.map Nat.digitChar := by
  rcases ds with _ | ⟨_, _ | ⟨d, _⟩⟩
  · simp
  · simp
  · intro e
    exact (by decide : ∀ d < 10, 'x' ≠ Nat.digitChar d) d (h d (by simp)) (List.cons.inj (List.cons.inj e).2).1

/-- `readNumber` answers `n` exactly on the texts that spell `n`. -/
theorem readNumber_eq_some_iff (text : List Char) (n : Nat) : readNumber text = some n ↔ NumberText text n := by
  unfold readNumber NumberText
  split
  · constructor
    · nofun
    · rintro ⟨ds, h, ⟨-, h2, -⟩ | ⟨-, -, cs, h2, -⟩⟩
      · exact absurd (by simpa using h2.symm) h
      · cases h2
  · next c cs =>
    rw [readHex_iff]
    constructor
    · rintro ⟨ds, h1, h2, h3⟩
      exact ⟨ds, (by rintro rfl; simp at h2), .inr ⟨h1, h3, _, rfl, h2⟩⟩
    · rintro ⟨ds, h, ⟨h1, h2, -⟩ | ⟨h1, h2, cs, h3, h4⟩⟩
      · exact absurd h2 (x_not_decimal h1)
      · cases h3; exact ⟨ds, h1, h4, h2⟩
  · next h0 hx =>
    rw [readDecimal_iff]
    constructor
    · rintro ⟨ds, h1, h2, h3⟩
      exact ⟨ds, by rintro rfl; exact h0 (by simpa using h2), .inl ⟨h1, h2, h3⟩⟩
    · rintro ⟨ds, h, ⟨h1, h2, h3⟩ | ⟨h1, h2, cs, h3, h4⟩⟩
      · exact ⟨ds, h1, h2, h3⟩
      · rcases cs with _ | ⟨c, cs⟩
        · simp at h4; exact absurd h4 h
        · exact absurd h3 (hx c cs)

/-- `readField` answers `n` exactly on the texts of a `pos` or `len` `n`. -/
theorem readField_eq_some_iff (text : List Char) (n : Nat) : readField text = some n ↔ FieldText text n := by
  simp [readField, FieldText, Option.filter_eq_some_iff, readNumber_eq_some_iff, fieldFits]

theorem upperCase_eq_toUpper (c : Char) : upperCase c = c.toUpper := by
  have e : ('a'.val ≤ c.val ∧ c.val ≤ 'z'.val) ↔ 97 ≤ c.toNat ∧ c.toNat ≤ 122 := Iff.rfl
  by_cases h : 97 ≤ c.toNat ∧ c.toNat ≤ 122
  · rw [upperCase, if_pos h, Char.toUpper, dif_pos (e.mpr h)]
    refine char_eq_of_toNat (n := c.toNat - 32) ?_ ?_
    · rw [Char.toNat_ofNat, if_pos (by left; omega)]
    · have hk : ('A'.val - 'a'.val).toNat = 4294967264 := by decide
      rw [Char.toNat, UInt32.toNat_add, hk, Char.toNat]
      have h' : 97 ≤ c.val.toNat ∧ c.val.toNat ≤ 122 := h
      omega
  · rw [upperCase, if_neg h, Char.toUpper, dif_neg fun k => h (e.mp k)]

end Sys2Proof.Machine
end

