-- ==== Sys2Proof/Laws/Decode.lean ====
section
/-! SUPPORT. The fields of an encoded control word, read back one by one, and the form of a decoded instruction. -/

namespace Sys2Proof

variable {op pos len : Nat}

theorem encodeFields_toNat (ho : op ≤ 31) (hp : pos ≤ 127) (hl : len ≤ 127) :
    (encodeFields op pos len).toNat = len * 2 ^ 12 + pos * 2 ^ 5 + op := by
  simp [encodeFields]; omega

theorem op_encodeFields (ho : op ≤ 31) (hp : pos ≤ 127) (hl : len ≤ 127) : Ctl.op (encodeFields op pos len) = op := by
  simp only [Ctl.op, BitVec.extractLsb'_toNat, encodeFields_toNat ho hp hl, Nat.shiftRight_eq_div_pow]; omega

theorem pos_encodeFields (ho : op ≤ 31) (hp : pos ≤ 127) (hl : len ≤ 127) : Ctl.pos (encodeFields op pos len) = pos := by
  simp only [Ctl.pos, BitVec.extractLsb'_toNat, encodeFields_toNat ho hp hl, Nat.shiftRight_eq_div_pow]; omega

theorem len_encodeFields (ho : op ≤ 31) (hp : pos ≤ 127) (hl : len ≤ 127) : Ctl.len (encodeFields op pos len) = len := by
  simp only [Ctl.len, BitVec.extractLsb'_toNat, encodeFields_toNat ho hp hl, Nat.shiftRight_eq_div_pow]; omega

theorem rsv_encodeFields (ho : op ≤ 31) (hp : pos ≤ 127) (hl : len ≤ 127) : Ctl.rsv (encodeFields op pos len) = 0 := by
  apply BitVec.eq_of_toNat_eq
  simp only [Ctl.rsv, BitVec.extractLsb'_toNat, encodeFields_toNat ho hp hl, Nat.shiftRight_eq_div_pow]
  simp; omega

theorem op_le (ctl : Ctl) : Ctl.op ctl ≤ 31 := by
  have := (ctl.extractLsb' 0 5).isLt; simp only [Ctl.op]; omega

theorem pos_le (ctl : Ctl) : Ctl.pos ctl ≤ 127 := by
  have := (ctl.extractLsb' 5 7).isLt; simp only [Ctl.pos]; omega

theorem len_le (ctl : Ctl) : Ctl.len ctl ≤ 127 := by
  have := (ctl.extractLsb' 12 7).isLt; simp only [Ctl.len]; omega

/-- A control word without reserved bits is the encoding of its fields. -/
theorem encodeFields_of_fields {ctl : Ctl} (h : Ctl.rsv ctl = 0) :
    encodeFields (Ctl.op ctl) (Ctl.pos ctl) (Ctl.len ctl) = ctl := by
  apply BitVec.eq_of_toNat_eq
  rw [encodeFields_toNat (op_le ctl) (pos_le ctl) (len_le ctl)]
  have hr := congrArg BitVec.toNat h
  have hlt := ctl.isLt
  simp only [Ctl.rsv, Ctl.op, Ctl.pos, Ctl.len, BitVec.extractLsb'_toNat, Nat.shiftRight_eq_div_pow] at hr ⊢
  simp at hr
  omega

theorem decode_of_rsv_zero {ctl : Ctl} (h : Ctl.rsv ctl = 0) :
    decode ctl = .ok (selectOp (Ctl.op ctl) (Ctl.pos ctl) (Ctl.len ctl)) := by
  simp [decode, h]

theorem decode_of_rsv_ne {ctl : Ctl} (h : Ctl.rsv ctl ≠ 0) : decode ctl = .error (.reservedBits (Ctl.rsv ctl)) := by
  rw [decode, if_neg h]

/-- Decoding an encoded word selects its operation with its fields. -/
theorem decode_encodeFields (ho : op ≤ 31) (hp : pos ≤ 127) (hl : len ≤ 127) :
    decode (encodeFields op pos len) = .ok (selectOp op pos len) := by
  rw [decode_of_rsv_zero (rsv_encodeFields ho hp hl), op_encodeFields ho hp hl, pos_encodeFields ho hp hl,
    len_encodeFields ho hp hl]

/-- The instruction a number selects: one of the sixteen operations, or reserved. -/
theorem selectOp_of_ge (h : 16 ≤ op) : selectOp op pos len = .reserved op pos len := by
  unfold selectOp
  split <;> first | omega | rfl

end Sys2Proof
end

