-- ==== Sys2Proof/Laws/Operands.lean ====
section
/-! SUPPORT. The datapath bit by bit: the mask, the smear and the count of set bits, the bit-reverse loop, and the range of
the high word. -/

namespace Sys2Proof.Machine

/-- `ones n` has exactly the bits below `n` (41_bitfield.md R100). -/
theorem getLsbD_ones {n : Nat} (h : n ≤ 64) (i : Nat) : (ones n).getLsbD i = decide (i < n) := by
  simp only [ones, BitVec.getLsbD_ofNat, Nat.testBit_two_pow_sub_one]
  by_cases hi : i < n <;> simp [hi]
  omega

/-- `y` is the smear of `x` over a window of `w` bits: bit `i` of `y` is the OR of bits `i` to `i + w - 1` of `x`. -/
def SmearsOver (w : Nat) (x y : Word) : Prop :=
  ∀ i, y.getLsbD i = true ↔ ∃ j, i ≤ j ∧ j < i + w ∧ x.getLsbD j = true

theorem smearsOver_one (x : Word) : SmearsOver 1 x x := fun i =>
  ⟨fun h => ⟨i, le_refl _, by omega, h⟩, fun ⟨j, h1, h2, h3⟩ => by
    obtain rfl : j = i := by omega
    exact h3⟩

/-- An OR-shift by the window's width doubles the window (42_signext_normalize.md R140). -/
theorem smearsOver_step {w : Nat} {x y : Word} (h : SmearsOver w x y) : SmearsOver (w + w) x (smearStep y w) := by
  intro i
  simp only [smearStep, BitVec.getLsbD_or, BitVec.getLsbD_ushiftRight, Bool.or_eq_true, h i, h (w + i)]
  constructor
  · rintro (⟨j, h1, h2, h3⟩ | ⟨j, h1, h2, h3⟩) <;> exact ⟨j, by omega, by omega, h3⟩
  · rintro ⟨j, h1, h2, h3⟩
    rcases Nat.lt_or_ge j (i + w) with hj | hj
    · exact .inl ⟨j, h1, hj, h3⟩
    · exact .inr ⟨j, by omega, by omega, h3⟩

/-- Every bit at or below a set bit is set in the smear, and no other (42_signext_normalize.md R140). -/
theorem getLsbD_smear (x : Word) (i : Nat) : (smear x).getLsbD i = true ↔ ∃ j, i ≤ j ∧ x.getLsbD j = true := by
  have h : SmearsOver 64 x (smear x) :=
    smearsOver_step (smearsOver_step (smearsOver_step (smearsOver_step (smearsOver_step (smearsOver_step
      (smearsOver_one x))))))
  rw [h i]
  constructor
  · rintro ⟨j, h1, -, h3⟩; exact ⟨j, h1, h3⟩
  · rintro ⟨j, h1, h3⟩
    have := BitVec.lt_of_getLsbD h3
    exact ⟨j, h1, by omega, h3⟩

theorem smear_zero : smear 0 = 0 := by decide

/-- `k` is the highest set bit of `x`. -/
def HighestSet (x : Word) (k : Nat) : Prop := x.getLsbD k = true ∧ ∀ j, k < j → x.getLsbD j = false

theorem HighestSet.lt {x : Word} {k : Nat} (h : HighestSet x k) : k < 64 := BitVec.lt_of_getLsbD h.1

/-- For x != 0 with highest set bit k, `smear(x) = ones(k+1)` (42_signext_normalize.md R140). -/
theorem smear_of_highestSet {x : Word} {k : Nat} (h : HighestSet x k) : smear x = ones (k + 1) := by
  have hk := h.lt
  apply BitVec.eq_of_getLsbD_eq
  intro i _
  rw [getLsbD_ones (by omega), Bool.eq_iff_iff, getLsbD_smear]
  constructor
  · rintro ⟨j, h1, h3⟩
    have : ¬ k < j := fun hj => by simp [h.2 j hj] at h3
    simp; omega
  · intro hi
    exact ⟨k, by simpa [Nat.lt_succ_iff] using hi, h.1⟩

/-- A nonzero word has a highest set bit. -/
theorem exists_highestSet {x : Word} (h : x ≠ 0) : ∃ k, HighestSet x k := by
  have hx : x.toNat ≠ 0 := fun h0 => h (BitVec.eq_of_toNat_eq (by simpa using h0))
  refine ⟨Nat.log2 x.toNat, Nat.testBit_log2 hx, fun j hj => ?_⟩
  exact Nat.testBit_lt_two_pow (lt_of_lt_of_le Nat.lt_log2_self (Nat.pow_le_pow_right (by omega) hj))

/-- The count of a run of set bits from bit 0 up. -/
theorem countSetBelow_of_run {y : Word} {m : Nat} : ∀ {n : Nat}, (∀ i, i < n → y.getLsbD i = decide (i < m)) →
    countSetBelow y n = min n m
  | 0, _ => by simp [countSetBelow]
  | n + 1, h => by
    rw [countSetBelow, countSetBelow_of_run (fun i hi => h i (by omega)), h n (by omega)]
    by_cases hn : n < m <;> simp [hn] <;> omega

/-- The count of a run of set bits from bit `m` up. -/
theorem countSetBelow_of_topRun {y : Word} {m : Nat} : ∀ {n : Nat}, (∀ i, i < n → y.getLsbD i = decide (m ≤ i)) →
    countSetBelow y n = n - m
  | 0, _ => by simp [countSetBelow]
  | n + 1, h => by
    rw [countSetBelow, countSetBelow_of_topRun (fun i hi => h i (by omega)), h n (by omega)]
    by_cases hn : m ≤ n <;> simp [hn] <;> omega

theorem popcount_ones {n : Nat} (h : n ≤ 64) : popcount (ones n) = n := by
  rw [popcount, countSetBelow_of_run (m := n) (fun i _ => getLsbD_ones h i)]; omega

theorem popcount_not_ones {n : Nat} (h : n ≤ 64) : popcount (~~~(ones n)) = 64 - n := by
  refine countSetBelow_of_topRun (m := n) fun i hi => ?_
  rw [BitVec.getLsbD_not, getLsbD_ones h]
  by_cases hn : i < n
  · simp [hn, hi]
  · simp [hn, hi]; omega

/-- The bits of the reverse loop after `n` of its iterations (43_rotate_permute.md R185). -/
theorem getLsbD_reverseLoop (a : Word) {len : Nat} (hl : len ≤ 64) (i : Nat) : ∀ {n : Nat}, n ≤ len →
    (reverseLoop a len n).getLsbD i = (decide (i < len ∧ len - 1 - i < n) && a.getLsbD (len - 1 - i))
  | 0, _ => by simp [reverseLoop]
  | n + 1, hn => by
    rw [reverseLoop, BitVec.getLsbD_or, getLsbD_reverseLoop a hl i (n := n) (by omega)]
    simp only [BitVec.getLsbD_shiftLeft, BitVec.getLsbD_setWidth]
    rcases Nat.lt_trichotomy i (len - 1 - n) with h | h | h
    · rw [decide_eq_false (show ¬ (i < len ∧ len - 1 - i < n) by omega),
        decide_eq_false (show ¬ (i < len ∧ len - 1 - i < n + 1) by omega), decide_eq_true h]
      simp
    · rw [decide_eq_false (show ¬ (i < len ∧ len - 1 - i < n) by omega),
        decide_eq_true (show i < len ∧ len - 1 - i < n + 1 by omega),
        decide_eq_false (show ¬ i < len - 1 - n by omega), decide_eq_true (show i < 64 by omega),
        show i - (len - 1 - n) = 0 by omega, show len - 1 - i = n by omega]
      simp
    · rw [BitVec.getLsbD_of_ge (BitVec.ofBool (a.getLsbD n)) (i - (len - 1 - n)) (by omega),
        show decide (i < len ∧ len - 1 - i < n + 1) = decide (i < len ∧ len - 1 - i < n) from
          decide_eq_decide.mpr (by omega)]
      simp

/-- The bits of byte `k` (00_scope.md R12). -/
theorem getLsbD_byteOf (a : Word) (k i : Nat) : (byteOf a k).getLsbD i = (decide (i < 8) && a.getLsbD (8 * k + i)) := by
  simp [byteOf]

/-- Bit `i` of BSWAP64 lies in byte 7 - i/8 of A (43_rotate_permute.md R189). -/
theorem getLsbD_byteSwap64 (a : Word) {i : Nat} (h : i < 64) :
    (byteSwap64 a).getLsbD i = a.getLsbD (8 * (7 - i / 8) + i % 8) := by
  simp only [byteSwap64, BitVec.getLsbD_append, getLsbD_byteOf]
  interval_cases i <;> rfl

/-- Bit `i` of BSWAP32 lies in byte 3 - i/8 of A, and the upper half is 0 (43_rotate_permute.md R187). -/
theorem getLsbD_byteSwap32 (a : Word) (i : Nat) :
    (byteSwap32 a).getLsbD i = (decide (i < 32) && a.getLsbD (8 * (3 - i / 8) + i % 8)) := by
  rcases Nat.lt_or_ge i 32 with h | h
  · simp only [byteSwap32, BitVec.getLsbD_setWidth, BitVec.getLsbD_append, getLsbD_byteOf]
    interval_cases i <;> rfl
  · rw [byteSwap32, BitVec.getLsbD_setWidth, BitVec.getLsbD_of_ge _ i h]
    simp; omega

/-- The high word of a product that fits a signed 128-bit word with its high word in the signed 64-bit range is exact. -/
theorem toInt_hi64 {p : Int} (h1 : -(2 ^ 63) ≤ p / 2 ^ 64) (h2 : p / 2 ^ 64 < 2 ^ 63) : (hi64 p).toInt = p / 2 ^ 64 := by
  rw [hi64, BitVec.toInt_ofInt]
  exact Int.bmod_eq_of_le (by simpa using h1) (by simpa using h2)

end Sys2Proof.Machine
end

