-- ==== Sys2Proof/Laws/State.lean ====
section
/-! SUPPORT. One lemma per field per named update of State, true by rfl, so that no later proof unfolds a record update. -/

namespace Sys2Proof.Machine

@[simp] theorem clockEdge_lat (s : State) : s.clockEdge.lat = s.lat := rfl
@[simp] theorem clockEdge_pins (s : State) : s.clockEdge.pins = s.nextPins := rfl
@[simp] theorem clockEdge_front (s : State) : s.clockEdge.front = none := rfl
@[simp] theorem clockEdge_slots (s : State) : s.clockEdge.slots = s.slotsAfterEdge := rfl
@[simp] theorem clockEdge_inputs (s : State) : s.clockEdge.inputs = s.inputs.tail := rfl

@[simp] theorem withFetchWord_lat (s : State) (nbits w : Nat) : (s.withFetchWord nbits w).lat = s.lat := rfl
@[simp] theorem withFetchWord_pins (s : State) (nbits w : Nat) : (s.withFetchWord nbits w).pins = s.pins := rfl
@[simp] theorem withFetchWord_front (s : State) (nbits w : Nat) : (s.withFetchWord nbits w).front = s.front := rfl
@[simp] theorem withFetchWord_slots (s : State) (nbits w : Nat) : (s.withFetchWord nbits w).slots = s.slots := rfl
@[simp] theorem withFetchWord_inputs (s : State) (nbits w : Nat) : (s.withFetchWord nbits w).inputs =
    { s.nextPins with rst := false, reqValid := true, ctl := BitVec.ofNat 32 (w % 2 ^ nbits) } :: s.inputs.tail := rfl

@[simp] theorem resetWith_lat (lat : Nat) : (State.resetWith lat).lat = lat := rfl
@[simp] theorem resetWith_pins (lat : Nat) : (State.resetWith lat).pins = Pins.idle := rfl
@[simp] theorem resetWith_slots (lat : Nat) : (State.resetWith lat).slots = List.replicate lat none := rfl
@[simp] theorem resetWith_inputs (lat : Nat) : (State.resetWith lat).inputs = [] := rfl

@[simp] theorem probe_lat (ctl : Ctl) (a b : Word) : (probe ctl a b).lat = 0 := rfl
@[simp] theorem probe_ctl (ctl : Ctl) (a b : Word) : (probe ctl a b).pins.ctl = ctl := rfl
@[simp] theorem probe_a (ctl : Ctl) (a b : Word) : (probe ctl a b).pins.a = a := rfl
@[simp] theorem probe_b (ctl : Ctl) (a b : Word) : (probe ctl a b).pins.b = b := rfl
@[simp] theorem probe_presents (ctl : Ctl) (a b : Word) : (probe ctl a b).presents = true := rfl

@[simp] theorem nextState_next (s : State) : nextState (.next s) = some s := rfl

theorem nextPins_of_cons {s : State} {p : Pins} {rest : List Pins} (h : s.inputs = p :: rest) : s.nextPins = p := by
  simp [State.nextPins, h]

theorem nextPins_of_nil {s : State} (h : s.inputs = []) :
    s.nextPins = { s.pins with rst := false, reqValid := false } := by
  simp [State.nextPins, h]

/-- `presents` reads `lat` and the pins alone. -/
theorem presents_congr {s t : State} (hl : s.lat = t.lat) (hp : s.pins = t.pins) : s.presents = t.presents := by
  simp [State.presents, hl, hp]

theorem presents_iff (s : State) :
    s.presents = true ↔ (s.pins.reqValid = true ∧ s.pins.rst = false) ∨ s.lat = 0 := by
  simp [State.presents]

end Sys2Proof.Machine
end

