-- ==== Sys2Proof/Laws/Ops.lean ====
section
/-! SUPPORT. What each shared operation can do, said once: a response changes `front` alone, a domain check chooses between
two responses, the clock edge keeps `LAT` slots, and settling reads nothing but `lat` and the pins. -/

namespace Sys2Proof.Machine

theorem respond_eq (r : Word) (e : ErrCode) (s : State) : respond r e s = .next { s with front := some ⟨r, e⟩ } := rfl

theorem raiseIllegalOp_eq (s : State) : raiseIllegalOp s = .next { s with front := some ⟨0, 0b01⟩ } := rfl

theorem raiseDomainError_eq (s : State) : raiseDomainError s = .next { s with front := some ⟨0, 0b10⟩ } := rfl

theorem respondIf_of_inDomain {ok : Bool} (h : ok = true) (r : Word) (s : State) :
    respondIf ok r s = .next { s with front := some ⟨r, 0b00⟩ } := by
  subst h; rfl

theorem respondIf_of_outside {ok : Bool} (h : ok = false) (r : Word) (s : State) :
    respondIf ok r s = .next { s with front := some ⟨0, 0b10⟩ } := by
  subst h; rfl

/-- A response chosen by `respondIf`, as one record. -/
theorem respondIf_eq (ok : Bool) (r : Word) (s : State) :
    respondIf ok r s = .next { s with front := some (if ok then ⟨r, 0b00⟩ else ⟨0, 0b10⟩) } := by
  cases ok <;> rfl

theorem fieldOk_iff (pos len : Nat) : fieldOk pos len = true ↔ pos + len ≤ 64 := by
  simp [fieldOk]; omega

theorem countOk_iff (len : Nat) : countOk len = true ↔ len ≤ 64 := by simp [countOk]

theorem bitOk_iff (pos : Nat) : bitOk pos = true ↔ pos ≤ 63 := by simp [bitOk]

theorem signWidthOk_iff (len : Nat) : signWidthOk len = true ↔ 1 ≤ len ∧ len ≤ 64 := by simp [signWidthOk]

theorem rotateOk_iff (w len : Nat) : rotateOk w len = true ↔ len < w := by simp [rotateOk]

/-- The rising edge keeps the number of slots: `LAT` of them after it, if there were `LAT` before. -/
theorem slotsAfterEdge_length {s : State} (h : s.slots.length = s.lat) : s.slotsAfterEdge.length = s.lat := by
  unfold State.slotsAfterEdge
  split
  · simp
  · simp [State.stages, h]

/-- A slot after the edge held its response as a stage before it. -/
theorem mem_slotsAfterEdge {s : State} {r : Response} (h : some r ∈ s.slotsAfterEdge) : some r ∈ s.stages := by
  unfold State.slotsAfterEdge at h
  split at h
  · simp at h
  · exact List.mem_of_mem_take h

/-- The output of a machine whose last slot is the one at index `n`. -/
theorem response_of_lat_succ {s : State} {n : Nat} (h : s.lat = n + 1) : s.response = (s.slots[n]?).join := by
  simp [State.response, State.stages, h]

theorem response_of_lat_zero {s : State} (h : s.lat = 0) : s.response = s.front := by
  simp [State.response, State.stages, h]

end Sys2Proof.Machine
end

