-- ==== Sys2Proof/Laws/PerInstr.lean ====
section
/-! SUPPORT. A law of every instruction as syntax: the control word of a well-formed instruction carries its `op` number and
no reserved bit (30_encoding.md R65, R67, R70). One lemma per constructor. -/

namespace Sys2Proof.Laws.EncodedWord

/-- The encoding of a well-formed instruction has CTL[31:19] = 0 and its own `op`. -/
def Statement (i : Instr) : Prop := i.wf = true → Ctl.rsv (encode i) = 0 ∧ Ctl.op (encode i) = i.opNumber

/-- A control word built from fields that fit carries its `op` and no reserved bit (30_encoding.md R70). -/
theorem fields_carry {op pos len : Nat} (ho : op ≤ 31) (hp : fieldFits pos = true) (hl : fieldFits len = true) :
    Ctl.rsv (encodeFields op pos len) = 0 ∧ Ctl.op (encodeFields op pos len) = op :=
  ⟨rsv_encodeFields ho (of_decide_eq_true hp) (of_decide_eq_true hl),
   op_encodeFields ho (of_decide_eq_true hp) (of_decide_eq_true hl)⟩

/-- The numbers of the operations that exist fit in `op` (30_encoding.md R65). -/
theorem le_31 {op : Nat} (h : decide (op ≤ 31) = true) : op ≤ 31 := of_decide_eq_true h

theorem mask (len : Nat) : Statement (.mask len) := fun h => fields_carry (le_31 rfl) rfl h

theorem extract (pos len : Nat) : Statement (.extract pos len) := fun h =>
  fields_carry (le_31 rfl) (Bool.and_eq_true_iff.mp h).1 (Bool.and_eq_true_iff.mp h).2

theorem replace (pos len : Nat) : Statement (.replace pos len) := fun h =>
  fields_carry (le_31 rfl) (Bool.and_eq_true_iff.mp h).1 (Bool.and_eq_true_iff.mp h).2

theorem test (pos : Nat) : Statement (.test pos) := fun h => fields_carry (le_31 rfl) h rfl

theorem sext (len : Nat) : Statement (.sext len) := fun h => fields_carry (le_31 rfl) rfl h

theorem npow2 : Statement .npow2 := fun _ => fields_carry (le_31 rfl) rfl rfl

theorem clz : Statement .clz := fun _ => fields_carry (le_31 rfl) rfl rfl

theorem bitlen : Statement .bitlen := fun _ => fields_carry (le_31 rfl) rfl rfl

theorem rol32 (len : Nat) : Statement (.rol32 len) := fun h => fields_carry (le_31 rfl) rfl h

theorem rol64 (len : Nat) : Statement (.rol64 len) := fun h => fields_carry (le_31 rfl) rfl h

theorem revbits (len : Nat) : Statement (.revbits len) := fun h => fields_carry (le_31 rfl) rfl h

theorem bswap32 : Statement .bswap32 := fun _ => fields_carry (le_31 rfl) rfl rfl

theorem bswap64 : Statement .bswap64 := fun _ => fields_carry (le_31 rfl) rfl rfl

theorem mulh : Statement .mulh := fun _ => fields_carry (le_31 rfl) rfl rfl

theorem mulhu : Statement .mulhu := fun _ => fields_carry (le_31 rfl) rfl rfl

theorem mulhsu : Statement .mulhsu := fun _ => fields_carry (le_31 rfl) rfl rfl

theorem reserved (op pos len : Nat) : Statement (.reserved op pos len) := fun h =>
  have hopl := Bool.and_eq_true_iff.mp h
  have hop := Bool.and_eq_true_iff.mp hopl.1
  fields_carry (of_decide_eq_true (Bool.and_eq_true_iff.mp hop.1).2) hop.2 hopl.2

end Sys2Proof.Laws.EncodedWord
end

