-- ==== Sys2Proof/Laws/Step.lean ====
section
/-! SUPPORT. A step as its two halves, and the host's run unrolled by one step. -/

namespace Sys2Proof.Machine

/-- A step settles the signals after the rising edge (10_state.md R28). -/
theorem step_eq_settle (s : State) : step s = settle s.clockEdge := rfl

/-- With no request presented, settling leaves no response (10_state.md R28). -/
theorem settle_of_not_presents {s : State} (h : s.presents = false) : settle s = .next { s with front := none } := by
  simp [settle, h]

/-- A presented control word that decodes is run. -/
theorem settle_of_decode {s : State} {i : Instr} (h : s.presents = true) (hd : decode s.pins.ctl = .ok i) :
    settle s = exec i s := by
  simp [settle, h, hd]

/-- A presented control word with a reserved bit set gives ILLEGAL_OP (30_encoding.md R67). -/
theorem settle_of_reject {s : State} {e : Reject} (h : s.presents = true) (hd : decode s.pins.ctl = .error e) :
    settle s = .next { s with front := some ⟨0, 0b01⟩ } := by
  simp [settle, h, hd, raiseIllegalOp_eq]

/-- A run whose first step answers a next state goes on from there, for any machine behind the host's interface. -/
theorem run_succ_of_step (M : Host.Core) {s t : M.State} (h : M.step s = .next t) (k : Nat) :
    M.run (k + 1) s = M.run k t := by
  rw [Host.Core.run, h]

/-- `run_succ_of_step` for this machine. -/
theorem core_run_succ {s t : State} (h : step s = .next t) (k : Nat) :
    Sys2Proof.core.run (k + 1) s = Sys2Proof.core.run k t :=
  run_succ_of_step Sys2Proof.core h k

end Sys2Proof.Machine
end

