-- ==== Sys2Proof/Tests/Slice0.lean ====
section
/-! SUPPORT. The model's own tests: ill-formed terms that WellFormed refuses, decodings of words written out from
30_encoding.md R61 and R65 field by field, responses taken from 95_test_vectors.md, single steps of its program P6, and, for
every statement with hypotheses, a witness that meets them. -/

namespace Sys2Proof.Tests

open Sys2Proof.Machine

/-! ### WellFormed: an ill-formed term for each check -/

theorem test_wf_refuses_len_128 :
    (Instr.mask 128).wf = false ∧ (Instr.extract 0 128).wf = false ∧ (Instr.replace 0 128).wf = false ∧
    (Instr.sext 128).wf = false ∧ (Instr.rol32 128).wf = false ∧ (Instr.rol64 128).wf = false ∧
    (Instr.revbits 128).wf = false ∧ (Instr.reserved 16 0 128).wf = false := by decide

theorem test_wf_refuses_pos_128 :
    (Instr.extract 128 0).wf = false ∧ (Instr.replace 128 0).wf = false ∧ (Instr.test 128).wf = false ∧
    (Instr.reserved 16 128 0).wf = false := by decide

theorem test_wf_refuses_op_outside_16_to_31 :
    (Instr.reserved 15 0 0).wf = false ∧ (Instr.reserved 32 0 0).wf = false := by decide

theorem test_wf_accepts_the_edges :
    (Instr.extract 127 127).wf = true ∧ (Instr.reserved 16 127 127).wf = true ∧ (Instr.reserved 31 0 0).wf = true ∧
    Instr.mulhsu.wf = true := by decide

/-! ### Decode: every constructor, its word written as rsv, len, pos, op (R61, R65) -/

theorem test_decode_bitfield :
    decode (0b0000000000000#13 ++ 0b0001010#7 ++ 0b0000000#7 ++ 0b00000#5) = .ok (.mask 10) ∧
    decode (0b0000000000000#13 ++ 0b0001100#7 ++ 0b0010100#7 ++ 0b00001#5) = .ok (.extract 20 12) ∧
    decode (0b0000000000000#13 ++ 0b0000100#7 ++ 0b0001000#7 ++ 0b00010#5) = .ok (.replace 8 4) ∧
    decode (0b0000000000000#13 ++ 0b0000000#7 ++ 0b0111111#7 ++ 0b00011#5) = .ok (.test 63) := by decide

theorem test_decode_sign_normalize :
    decode (0b0000000000000#13 ++ 0b0010100#7 ++ 0b0000000#7 ++ 0b00100#5) = .ok (.sext 20) ∧
    decode (0b0000000000000#13 ++ 0b0000000#7 ++ 0b0000000#7 ++ 0b00101#5) = .ok .npow2 ∧
    decode (0b0000000000000#13 ++ 0b0000000#7 ++ 0b0000000#7 ++ 0b00110#5) = .ok .clz ∧
    decode (0b0000000000000#13 ++ 0b0000000#7 ++ 0b0000000#7 ++ 0b00111#5) = .ok .bitlen := by decide

theorem test_decode_rotate_permute :
    decode (0b0000000000000#13 ++ 0b0000001#7 ++ 0b0000000#7 ++ 0b01000#5) = .ok (.rol32 1) ∧
    decode (0b0000000000000#13 ++ 0b0111111#7 ++ 0b0000000#7 ++ 0b01001#5) = .ok (.rol64 63) ∧
    decode (0b0000000000000#13 ++ 0b0000100#7 ++ 0b0000000#7 ++ 0b01010#5) = .ok (.revbits 4) ∧
    decode (0b0000000000000#13 ++ 0b0000000#7 ++ 0b0000000#7 ++ 0b01011#5) = .ok .bswap32 ∧
    decode (0b0000000000000#13 ++ 0b0000000#7 ++ 0b0000000#7 ++ 0b01100#5) = .ok .bswap64 := by decide

theorem test_decode_mulhigh_and_reserved :
    decode (0b0000000000000#13 ++ 0b0000000#7 ++ 0b0000000#7 ++ 0b01101#5) = .ok .mulh ∧
    decode (0b0000000000000#13 ++ 0b0000000#7 ++ 0b0000000#7 ++ 0b01110#5) = .ok .mulhu ∧
    decode (0b0000000000000#13 ++ 0b0000000#7 ++ 0b0000000#7 ++ 0b01111#5) = .ok .mulhsu ∧
    decode (0b0000000000000#13 ++ 0b1111111#7 ++ 0b0000001#7 ++ 0b10010#5) = .ok (.reserved 18 1 127) := by decide

/-- R67: the lowest and the highest reserved bit. -/
theorem test_decode_rejects_reserved_bits :
    decode (0b0000000000001#13 ++ 0b0000000#7 ++ 0b0000000#7 ++ 0b00101#5) = .error (.reservedBits 1) ∧
    decode (0b1000000000000#13 ++ 0b0000000#7 ++ 0b0000000#7 ++ 0b01110#5) = .error (.reservedBits 0x1000) ∧
    decodeTableWord 32 0x00080005 = none ∧ decodeTableWord 32 0x00000010 = some (.reserved 16 0 0) := by decide

/-! ### Responses, from 95_test_vectors.md section 2 -/

theorem test_mask :
    answer 0x00000000 0 0 = some ⟨0, 0b00⟩ ∧ answer 0x0003F000 0 0 = some ⟨0x7FFFFFFFFFFFFFFF, 0b00⟩ ∧
    answer 0x00040000 0 0 = some ⟨0xFFFFFFFFFFFFFFFF, 0b00⟩ ∧ answer 0x00041000 0 0 = some ⟨0, 0b10⟩ := by decide

theorem test_extract :
    answer 0x0000C281 0x00000000FFF00093 0 = some ⟨0x0000000000000FFF, 0b00⟩ ∧
    answer 0x00000801 0xFFFFFFFFFFFFFFFF 0 = some ⟨0, 0b00⟩ ∧
    answer 0x000017E1 0x8000000000000000 0 = some ⟨1, 0b00⟩ ∧
    answer 0x00005781 0x0123456789ABCDEF 0 = some ⟨0, 0b10⟩ := by decide

theorem test_replace :
    answer 0x00008082 0x0000000000001234 0xFFFFFFFFFFFFFFAB = some ⟨0x0000000000001AB4, 0b00⟩ ∧
    answer 0x000017E2 0xFFFFFFFFFFFFFFFF 0 = some ⟨0x7FFFFFFFFFFFFFFF, 0b00⟩ ∧
    answer 0x00000802 0x0123456789ABCDEF 0xFFFFFFFFFFFFFFFF = some ⟨0x0123456789ABCDEF, 0b00⟩ ∧
    answer 0x00001802 0 0 = some ⟨0, 0b10⟩ := by decide

theorem test_test :
    answer 0x000007E3 0x8000000000000000 0 = some ⟨1, 0b00⟩ ∧ answer 0x00000003 0xFFFFFFFFFFFFFFFE 0 = some ⟨0, 0b00⟩ ∧
    answer 0x000630A3 0xFFFFFFFFFFFFFFFF 5 = some ⟨1, 0b00⟩ ∧
    answer 0x00000803 0xFFFFFFFFFFFFFFFF 0 = some ⟨0, 0b10⟩ := by decide

theorem test_sext :
    answer 0x00014004 0x0000000000080000 0 = some ⟨0xFFFFFFFFFFF80000, 0b00⟩ ∧
    answer 0x00014004 0x000000000007FFFF 0 = some ⟨0x000000000007FFFF, 0b00⟩ ∧
    answer 0x00001004 2 0 = some ⟨0, 0b00⟩ ∧ answer 0x00000004 5 0 = some ⟨0, 0b10⟩ := by decide

theorem test_npow2 :
    answer 0x00000005 0 0 = some ⟨0, 0b00⟩ ∧ answer 0x00000005 5 0 = some ⟨8, 0b00⟩ ∧
    answer 0x00000005 0x8000000000000000 0 = some ⟨0x8000000000000000, 0b00⟩ ∧
    answer 0x00000005 0x8000000000000001 0 = some ⟨0, 0b00⟩ := by decide

theorem test_clz :
    answer 0x00000006 0 0 = some ⟨64, 0b00⟩ ∧ answer 0x00000006 0x00000000000000F0 0 = some ⟨56, 0b00⟩ ∧
    answer 0x00000006 0xFFFFFFFFFFFFFFFF 0 = some ⟨0, 0b00⟩ := by decide

theorem test_bitlen :
    answer 0x00000007 0 0 = some ⟨0, 0b00⟩ ∧ answer 0x00000007 0x0000000000000400 0 = some ⟨11, 0b00⟩ ∧
    answer 0x00000007 0x8000000000000000 0 = some ⟨64, 0b00⟩ := by decide

theorem test_rol32 :
    answer 0x00001008 0x0000000080000001 0 = some ⟨3, 0b00⟩ ∧
    answer 0x00000008 0xFFFFFFFF12345678 0 = some ⟨0x0000000012345678, 0b00⟩ ∧
    answer 0x0001F008 0x0000000012345678 0 = some ⟨0x00000000091A2B3C, 0b00⟩ ∧
    answer 0x00020008 0x0000000012345678 0 = some ⟨0, 0b10⟩ := by decide

theorem test_rol64 :
    answer 0x00008009 0x0123456789ABCDEF 0 = some ⟨0x23456789ABCDEF01, 0b00⟩ ∧
    answer 0x0003F009 0x0123456789ABCDEF 0 = some ⟨0x8091A2B3C4D5E6F7, 0b00⟩ ∧
    answer 0x00040009 0x0123456789ABCDEF 0 = some ⟨0, 0b10⟩ := by decide

theorem test_revbits :
    answer 0x0000400A 0x000000000000000B 0 = some ⟨0x000000000000000D, 0b00⟩ ∧
    answer 0x0000000A 0x00000000000000FF 0 = some ⟨0, 0b00⟩ ∧
    answer 0x0004000A 0x0123456789ABCDEF 0 = some ⟨0xF7B3D591E6A2C480, 0b00⟩ ∧
    answer 0x0004100A 1 0 = some ⟨0, 0b10⟩ := by decide

theorem test_bswap32 :
    answer 0x0000000B 0xFFFFFFFF12345678 0 = some ⟨0x0000000078563412, 0b00⟩ := by decide

theorem test_bswap64 :
    answer 0x0000000C 0x0123456789ABCDEF 0 = some ⟨0xEFCDAB8967452301, 0b00⟩ := by decide

theorem test_mulh :
    answer 0x0000000D 0xFFFFFFFFFFFFFFFF 1 = some ⟨0xFFFFFFFFFFFFFFFF, 0b00⟩ ∧
    answer 0x0000000D 0x8000000000000000 0x8000000000000000 = some ⟨0x4000000000000000, 0b00⟩ ∧
    answer 0x0000000D 0x0123456789ABCDEF 0xFEDCBA9876543210 = some ⟨0xFFFEB49923CC0953, 0b00⟩ := by decide

theorem test_mulhu :
    answer 0x0000000E 0xFFFFFFFFFFFFFFFF 0xFFFFFFFFFFFFFFFF = some ⟨0xFFFFFFFFFFFFFFFE, 0b00⟩ ∧
    answer 0x0000000E 0x0123456789ABCDEF 0xFEDCBA9876543210 = some ⟨0x0121FA00AD77D742, 0b00⟩ := by decide

/-- A is the signed operand: the two orders differ. -/
theorem test_mulhsu :
    answer 0x0000000F 0xFFFFFFFFFFFFFFFE 3 = some ⟨0xFFFFFFFFFFFFFFFF, 0b00⟩ ∧
    answer 0x0000000F 3 0xFFFFFFFFFFFFFFFE = some ⟨2, 0b00⟩ := by decide

/-- ILLEGAL_OP before DOMAIN (R304), from the error vectors. -/
theorem test_illegal_op :
    answer 0x00000010 0 0 = some ⟨0, 0b01⟩ ∧ answer 0x0000001F 0xFFFFFFFFFFFFFFFF 0 = some ⟨0, 0b01⟩ ∧
    answer 0x8000000E 0xFFFFFFFFFFFFFFFF 0xFFFFFFFFFFFFFFFF = some ⟨0, 0b01⟩ ∧
    answer 0x000FFFE1 0 0 = some ⟨0, 0b01⟩ := by decide

/-! ### Single steps of program P6 (`LAT` = 2) -/

/-- A cycle's input signals with a request. -/
def request (ctl : Ctl) (a : Word) : Pins := { rst := false, reqValid := true, ctl := ctl, a := a, b := 0 }

/-- P6 in cycle 2: SEXT is presented, EXTRACT's response stands on the output, and MASK's follows it. -/
def p6Cycle2 : State :=
  { lat := 2
    pins := request 0x0000C004 0x0000000000000FFF
    front := some ⟨0xFFFFFFFFFFFFFFFF, 0b00⟩
    slots := [some ⟨0xF, 0b00⟩, some ⟨0xFFF, 0b00⟩]
    inputs := [request 0x00000006 1] }

/-- P6 in cycle 4: `rst` = 1 with a BSWAP32 request that is not taken; CLZ's response (0x3F) is in flight. -/
def p6Cycle4 : State :=
  { lat := 2
    pins := { request 0x0000000B 0x0000000012345678 with rst := true }
    front := none
    slots := [some ⟨0x3F, 0b00⟩, some ⟨0xFFFFFFFFFFFFFFFF, 0b00⟩]
    inputs := [request 0x00000005 5] }

theorem test_p6_cycle_2_presents_extract : p6Cycle2.response = some ⟨0xFFF, 0b00⟩ := by decide

theorem test_p6_cycle_3 :
    (nextState (step p6Cycle2)).bind State.response = some ⟨0xF, 0b00⟩ ∧
    (nextState (step p6Cycle2)).bind State.front = some ⟨0x3F, 0b00⟩ := by decide

theorem test_p6_cycle_4_response_stands : p6Cycle4.response = some ⟨0xFFFFFFFFFFFFFFFF, 0b00⟩ := by decide

theorem test_p6_cycle_5_all_discarded :
    nextState (step p6Cycle4) =
      some { lat := 2, pins := request 0x00000005 5, front := some ⟨8, 0b00⟩, slots := [none, none], inputs := [] } := by
  decide

theorem test_reset_runs_its_first_request :
    (nextState (step (State.reset.withFetchWord 32 0x0000A000))).bind State.front = some ⟨0x3FF, 0b00⟩ := by decide

theorem test_exhausted_inputs_hold_the_pins_idle :
    nextState (step { p6Cycle2 with inputs := [] }) =
      some { lat := 2, pins := { request 0x0000C004 0x0000000000000FFF with reqValid := false }, front := none,
             slots := [some ⟨0xFFFFFFFFFFFFFFFF, 0b00⟩, some ⟨0xF, 0b00⟩], inputs := [] } := by decide

/-! ### The assembler (R74, R75) -/

theorem test_assemble :
    (assemble ['e', 'x', 't', 'r', 'a', 'c', 't'] [.value 0xFFF00093, .number ['2', '0'], .number ['0', 'x', 'C']]).map
      Call.ctl = some 0x0000C281 ∧
    (assemble ['R', 'O', 'R', '6', '4'] [.value 1, .number ['4']]).map Call.ctl = some 0x0003C009 ∧
    assemble ['M', 'A', 'S', 'K'] [.number ['1', '2', '8']] = none ∧
    assemble ['S', 'E', 'T', 'B', 'I', 'T'] [.value 1, .number ['6', '4']] = none := by decide

/-- One line of each syntax of R74, its operands in the order the table gives them. -/
theorem test_assemble_each_syntax :
    [assemble ['M', 'A', 'S', 'K'] [.number ['5']],
     assemble ['E', 'X', 'T', 'R', 'A', 'C', 'T'] [.value 7, .number ['3'], .number ['5']],
     assemble ['R', 'E', 'P', 'L', 'A', 'C', 'E'] [.value 7, .number ['3'], .number ['5'], .value 9],
     assemble ['T', 'E', 'S', 'T'] [.value 7, .number ['3']],
     assemble ['S', 'E', 'X', 'T'] [.value 7, .number ['5']],
     assemble ['N', 'P', 'O', 'W', '2'] [.value 7], assemble ['C', 'L', 'Z'] [.value 7],
     assemble ['B', 'I', 'T', 'L', 'E', 'N'] [.value 7],
     assemble ['R', 'O', 'L', '3', '2'] [.value 7, .number ['5']],
     assemble ['R', 'O', 'L', '6', '4'] [.value 7, .number ['5']],
     assemble ['R', 'E', 'V', 'B', 'I', 'T', 'S'] [.value 7, .number ['5']],
     assemble ['B', 'S', 'W', 'A', 'P', '3', '2'] [.value 7], assemble ['B', 'S', 'W', 'A', 'P', '6', '4'] [.value 7],
     assemble ['M', 'U', 'L', 'H'] [.value 7, .value 9], assemble ['M', 'U', 'L', 'H', 'U'] [.value 7, .value 9],
     assemble ['M', 'U', 'L', 'H', 'S', 'U'] [.value 7, .value 9]] =
    [some ⟨.mask 5, 0, 0⟩, some ⟨.extract 3 5, 7, 0⟩, some ⟨.replace 3 5, 7, 9⟩, some ⟨.test 3, 7, 0⟩, some ⟨.sext 5, 7, 0⟩,
     some ⟨.npow2, 7, 0⟩, some ⟨.clz, 7, 0⟩, some ⟨.bitlen, 7, 0⟩, some ⟨.rol32 5, 7, 0⟩, some ⟨.rol64 5, 7, 0⟩,
     some ⟨.revbits 5, 7, 0⟩, some ⟨.bswap32, 7, 0⟩, some ⟨.bswap64, 7, 0⟩, some ⟨.mulh, 7, 9⟩, some ⟨.mulhu, 7, 9⟩,
     some ⟨.mulhsu, 7, 9⟩] := by decide

/-! ### Witnesses: for every statement with hypotheses, values that meet them, each clause at a boundary -/

/-- A small state with given operands. -/
def operands (a b : Word) : State := probe 0 a b

theorem p6Cycle2_inv : p6Cycle2.Inv := by
  refine ⟨rfl, rfl, ?_⟩
  intro r hr
  simp only [State.stages, p6Cycle2, List.mem_cons, Option.some.injEq, List.not_mem_nil, or_false] at hr
  rcases hr with rfl | rfl | rfl <;> exact ⟨by decide, fun h => absurd rfl h⟩

theorem resetWith_two_inv : (State.resetWith 2).Inv := by
  refine ⟨rfl, rfl, fun r hr => ?_⟩
  simp [State.stages, State.resetWith] at hr

theorem resetWith_one_inv : (State.resetWith 1).Inv := by
  refine ⟨rfl, rfl, fun r hr => ?_⟩
  simp [State.stages, State.resetWith] at hr

theorem resetWith_zero_inv : (State.resetWith 0).Inv := by
  refine ⟨rfl, rfl, fun r hr => ?_⟩
  obtain rfl : r = ⟨0, 0⟩ := by simpa [State.stages, State.resetWith] using hr
  exact ⟨by decide, fun h => absurd rfl h⟩

theorem witness_DecodeOfEncodeIsTheInstruction :
    (Instr.extract 127 127).wf = true ∧ (Instr.reserved 31 0 127).wf = true := by decide

theorem witness_EncodeOfDecodeKeepsEveryUsedBit :
    decode 0x0007FFE5 = .ok .npow2 ∧ decode 0x0007FFFF = .ok (.reserved 31 127 127) := by decide

theorem witness_EncodedFieldsReadBack : (31 ≤ 31 ∧ 127 ≤ 127 ∧ 0 ≤ 127) ∧ encodeFields 31 127 0 = 0x00000FFF := by decide

theorem witness_OpcodeTableRowsDecode :
    ⟨"reserved_op_16-31", 0x00000010, 0xFFF80010⟩ ∈ opcodeTable ∧
    OpRow.accepts ⟨"reserved_op_16-31", 0x00000010, 0xFFF80010⟩ 0x0007FFFF = true ∧
    decode 0x0007FFFF = .ok (.reserved 31 127 127) := by decide

theorem witness_IgnoredInputsChangeNothing :
    ((0xFFFFFFFF12345678 : Word).extractLsb' 0 32 = (0x0000000012345678 : Word).extractLsb' 0 32) ∧
    (127 ≤ 127 ∧ 0 ≤ 127) := by decide

theorem witness_StepRunsTheDecodedInstruction :
    p6Cycle2.inputs = request 0x00000006 1 :: [] ∧ (request 0x00000006 1).reqValid = true ∧
    (request 0x00000006 1).rst = false ∧ decode (request 0x00000006 1).ctl = .ok .clz ∧
    (State.resetWith 0).lat = 0 ∧ decodeTableWord 32 0x00000006 = some .clz := by decide

theorem witness_ReservedBitsGiveIllegalOp :
    (request 0x00080005 5).reqValid = true ∧ (request 0x00080005 5).rst = false ∧
    (request 0x00080005 5).ctl.extractLsb' 19 13 ≠ 0 ∧ (State.resetWith 0).lat = 0 := by decide

theorem witness_ResponseIsAFunctionOfTheRequestAlone :
    p6Cycle2.inputs = request 0x00000006 1 :: [] ∧ (request 0x00000006 1).reqValid = true ∧
    (request 0x00000006 1).rst = false ∧ p6Cycle2.lat ≠ 0 ∧ p6Cycle4.pins.rst = true ∧ Pins.idle.reqValid = false := by
  decide

theorem witness_EveryInstructionChangesOnlyItsResponse :
    (operands 1 2).pins.a = (probe 5 1 2).pins.a ∧ (operands 1 2).pins.b = (probe 5 1 2).pins.b := by decide

theorem witness_ResetValues : 0 < (State.resetWith 1).lat ∧ (State.resetWith 0).lat = 0 := by decide

theorem witness_StepKeepsTheInvariant : p6Cycle2.Inv ∧ ∃ t : State, step p6Cycle2 = .next t := ⟨p6Cycle2_inv, _, rfl⟩

theorem witness_ResponseAppearsAfterExactlyLatCycles :
    p6Cycle2.Inv ∧ 0 < p6Cycle2.lat ∧ p6Cycle2.pins.rst = false ∧ p6Cycle2.pins.reqValid = true ∧
    ∀ p ∈ p6Cycle2.inputs.take (p6Cycle2.lat - 1), p.rst = false :=
  ⟨p6Cycle2_inv, by decide, rfl, rfl, by decide⟩

/-- The same with `LAT` = 1, the shortest latency, and no request presented. -/
theorem witness_ResponseAppearsAfterExactlyLatCycles_without_request :
    (State.resetWith 1).Inv ∧ 0 < (State.resetWith 1).lat ∧ (State.resetWith 1).pins.rst = false ∧
    (State.resetWith 1).pins.reqValid = false ∧
    ∀ p ∈ (State.resetWith 1).inputs.take ((State.resetWith 1).lat - 1), p.rst = false :=
  ⟨resetWith_one_inv, by decide, rfl, rfl, by decide⟩

theorem witness_ResetEdgeDiscardsEveryRequestInFlight :
    0 < p6Cycle4.lat ∧ p6Cycle4.pins.rst = true ∧ 1 ≤ 1 ∧
    (∃ t : State, Sys2Proof.core.run 1 p6Cycle4 = .next t) ∧ ¬ 1 + p6Cycle4.lat ≤ 1 :=
  ⟨by decide, rfl, le_refl 1, ⟨_, rfl⟩, by decide⟩

theorem witness_ResponsesAnswerTheRequestsInOrder :
    (State.resetWith 2).Inv ∧ (State.resetWith 2).slots = List.replicate (State.resetWith 2).lat none ∧
    (State.resetWith 2).NoResetAhead :=
  ⟨resetWith_two_inv, rfl, ⟨rfl, by decide⟩⟩

theorem witness_CombinationalOutputFollowsTheInputs : (State.resetWith 0).lat = 0 ∧ (State.resetWith 0).Inv :=
  ⟨rfl, resetWith_zero_inv⟩

/-- SEXT with `len` = 0 errs with DOMAIN, `op` 16 with ILLEGAL_OP; one later input is more than `LAT` = 0 of them; both
cycles may agree on `rst`. -/
theorem witness_AnErrorChangesNoLaterAnswer :
    answer 0x00000004 5 0 = some ⟨0, 0b10⟩ ∧ (0b10 : ErrCode) ≠ 0b00 ∧ answer 0x00000010 0 0 = some ⟨0, 0b01⟩ ∧
    (0 < [request 0x00000010 0].length ∧ (State.resetWith 0).lat < [request 0x00000010 0].length) ∧
    (request 0x00000004 5).rst = Pins.idle.rst := by decide

/-- One control word for each clause: reserved bits, a reserved `op`, the last value inside and the first outside. -/
theorem witness_ErrorCodeOfEveryRequest :
    (0x00080000 : Ctl).extractLsb' 19 13 ≠ 0 ∧ Ctl.op 0x00000010 = 16 ∧
    ((0x00040000 : Ctl).extractLsb' 19 13 = 0 ∧ Ctl.op 0x00040000 = 0 ∧ Ctl.len 0x00040000 = 64) ∧
    ((0x00041000 : Ctl).extractLsb' 19 13 = 0 ∧ Ctl.op 0x00041000 = 0 ∧ Ctl.len 0x00041000 = 65) := by decide

theorem witness_ReadingWithoutAResponseIsAFault :
    (State.resetWith 1).rspValid = false ∧ p6Cycle2.rspValid = true ∧
    useResult p6Cycle2 = .next 0xFFF ∧
    useResult { p6Cycle2 with slots := [none, some ⟨0, 0b10⟩] } = .fault .domainResponse :=
  ⟨by decide, by decide, rfl, rfl⟩

/-- The domain edges 64 and 65 of MASK, and its field edge 127; the answers are those of test_mask. -/
theorem witness_MaskAnswersTheLowOnes :
    (0 ≤ 64 ∧ 63 ≤ 63 ∧ 64 ≤ 64 ∧ 64 < 65) ∧
    nextState (exec (.mask 64) (operands 0 0)) =
      some { operands 0 0 with front := some ⟨0xFFFFFFFFFFFFFFFF, 0b00⟩ } := by decide

theorem witness_ExtractAnswersTheField :
    (64 + 0 ≤ 64 ∧ 60 + 4 ≤ 64 ∧ 1 ≤ 4 ∧ 64 < 60 + 5 ∧ 64 < 65) ∧
    nextState (exec (.extract 60 4) (operands 0xA000000000000000 0)) =
      some { operands 0xA000000000000000 0 with front := some ⟨0xA, 0b00⟩ } := by decide

theorem witness_ReplaceAnswersTheWordWithTheFieldReplaced :
    (64 + 0 ≤ 64 ∧ 63 + 1 ≤ 64 ∧ 64 < 64 + 1) ∧
    nextState (exec (.replace 63 1) (operands 0 1)) =
      some { operands 0 1 with front := some ⟨0x8000000000000000, 0b00⟩ } := by decide

theorem witness_TestAnswersTheBit :
    (63 ≤ 63 ∧ 63 < 64) ∧
    nextState (exec (.test 63) (operands 0x8000000000000000 0)) =
      some { operands 0x8000000000000000 0 with front := some ⟨1, 0b00⟩ } := by decide

theorem witness_ExtractAfterReplaceGivesTheReplacement :
    64 + 0 ≤ 64 ∧ 4 + 8 ≤ 64 ∧ resultOf (.replace 4 8) 0x1234 0xAB = some 0x1AB4 := by decide

theorem witness_ReplacingAFieldByItselfChangesNothing :
    4 + 8 ≤ 64 ∧ resultOf (.extract 4 8) 0x1234 0 = some 0x23 := by decide

theorem witness_SextAnswersTheSignedField :
    (1 ≤ 1 ∧ 1 ≤ 64 ∧ 64 ≤ 64 ∧ 64 < 65) ∧
    nextState (exec (.sext 1) (operands 1 0)) =
      some { operands 1 0 with front := some ⟨0xFFFFFFFFFFFFFFFF, 0b00⟩ } := by decide

/-- A in each clause: 0, 1, 2^63, 2^63 + 1, and 3 (neither 0 nor a power of two). -/
theorem witness_Npow2AnswersTheNextPowerOfTwo :
    (1 ≤ (1 : Word).toNat ∧ (0x8000000000000000 : Word).toNat ≤ 2 ^ 63) ∧ 2 ^ 63 < (0x8000000000000001 : Word).toNat ∧
    resultOf .npow2 3 0 = some 4 ∧ ∀ k : Nat, (3 : Word).toNat ≠ 2 ^ k := by
  refine ⟨by decide, by decide, by decide, fun k hk => ?_⟩
  match k with
  | 0 => exact absurd hk (by decide)
  | 1 => exact absurd hk (by decide)
  | n + 2 =>
    have h1 : 1 ≤ 2 ^ n := Nat.one_le_two_pow
    have h2 : (2 : Nat) ^ (n + 2) = 4 * 2 ^ n := by rw [Nat.pow_add, Nat.mul_comm]
    have h3 : (3 : Word).toNat = 3 := by decide
    omega

/-- The highest set bit of 0x400 is bit 10. -/
theorem witness_ClzAnswersTheLeadingZeroCount :
    10 ≤ 63 ∧ (0x400 : Word).getLsbD 10 = true ∧ ∀ j : Nat, 10 < j → (0x400 : Word).getLsbD j = false := by
  refine ⟨by decide, by decide, fun j hj => ?_⟩
  exact Nat.testBit_lt_two_pow (lt_of_lt_of_le (by decide : 0x400 < 2 ^ 11) (Nat.pow_le_pow_right (by decide) hj))

/-- The highest set bit of 2^63 is bit 63. -/
theorem witness_BitlenAnswersTheBitLength :
    63 ≤ 63 ∧ (0x8000000000000000 : Word).getLsbD 63 = true ∧
    ∀ j : Nat, 63 < j → (0x8000000000000000 : Word).getLsbD j = false :=
  ⟨by decide, by decide, fun j hj => BitVec.getLsbD_of_ge _ j hj⟩

theorem witness_BitlenAndClzSumTo64 : (1 : Word) ≠ 0 ∧ resultOf .bitlen 1 0 = some 1 ∧ resultOf .clz 1 0 = some 63 := by
  decide

theorem witness_Rol32RotatesTheLowHalf :
    (0 ≤ 31 ∧ 31 ≤ 31 ∧ 31 < 32) ∧
    nextState (exec (.rol32 31) (operands 0x12345678 0)) =
      some { operands 0x12345678 0 with front := some ⟨0x091A2B3C, 0b00⟩ } := by decide

theorem witness_Rol64RotatesTheWord :
    (0 ≤ 63 ∧ 63 ≤ 63 ∧ 63 < 64) ∧
    nextState (exec (.rol64 60) (operands 0x0123456789ABCDEF 0)) =
      some { operands 0x0123456789ABCDEF 0 with front := some ⟨0xF0123456789ABCDE, 0b00⟩ } := by decide

theorem witness_RevbitsReversesTheLowBits :
    (0 ≤ 64 ∧ 64 ≤ 64 ∧ 64 < 65) ∧
    nextState (exec (.revbits 64) (operands 1 0)) =
      some { operands 1 0 with front := some ⟨0x8000000000000000, 0b00⟩ } := by decide

theorem witness_Rol32Composes : 31 ≤ 31 ∧ 0 ≤ 31 ∧ resultOf (.rol32 4) 0x9ABCDEF 0 = some 0x9ABCDEF0 := by decide

theorem witness_Rol64Composes : 63 ≤ 63 ∧ 0 ≤ 63 ∧ resultOf (.rol64 63) 1 0 = some 0x8000000000000000 := by decide

theorem witness_RevbitsTwiceGivesTheLowBits : 64 ≤ 64 ∧ 0 ≤ 64 ∧ resultOf (.revbits 8) 0xEF 0 = some 0xF7 := by decide

theorem witness_MulhsuAnswersTheMixedHighPart :
    (0x7FFFFFFFFFFFFFFF : Word).getLsbD 63 = false ∧
    resultOf .mulhsu 0x7FFFFFFFFFFFFFFF 0xFFFFFFFFFFFFFFFF = some 0x7FFFFFFFFFFFFFFE := by decide

theorem witness_ReservedOperationsGiveIllegalOp :
    (16 ≤ 16 ∧ 16 ≤ 31 ∧ 31 ≤ 31 ∧ 127 ≤ 127) ∧
    nextState (exec (.reserved 31 127 127) (operands 1 1)) =
      some { operands 1 1 with front := some ⟨0, 0b01⟩ } := by decide

theorem witness_PseudoOperationsExpandToOneRequest :
    (Pseudo.zext 64).expand 7 = some ⟨.extract 0 64, 7, 0⟩ ∧ (Pseudo.zext 65).expand 7 = none ∧
    (Pseudo.setbit 63).expand 7 = some ⟨.replace 63 1, 7, 1⟩ ∧ (Pseudo.clrbit 64).expand 7 = none ∧
    (Pseudo.ror32 0).expand 7 = some ⟨.rol32 0, 7, 0⟩ ∧ (Pseudo.ror32 32).expand 7 = none ∧
    (Pseudo.ror64 63).expand 7 = some ⟨.rol64 1, 7, 0⟩ ∧ (Pseudo.ror64 64).expand 7 = none := by decide

/-- The largest number in range, decimal and hexadecimal in upper case, on a line in lower case. -/
theorem witness_AssemblerAcceptsExactlyTheLinesOfItsSyntax :
    assemble ['m', 'a', 's', 'k'] [.number ['1', '2', '7']] = some ⟨.mask 127, 0, 0⟩ ∧
    SourceLine (['M', 'a', 's', 'k'].map Char.toUpper) [.number ['0', 'x', '7', 'F']] ⟨.mask 127, 0, 0⟩ :=
  ⟨by decide, .mask ((readField_eq_some_iff _ _).mp (by decide))⟩

/-- 128 is the first number out of range; `z` spells none. -/
theorem witness_AssemblerRefusesEveryNumberOutOfRange :
    AsmArg.number ['1', '2', '8'] ∈ [AsmArg.value 0, .number ['1', '2', '8']] ∧
    (∀ n : Nat, n ≤ 127 → ¬ NumberText ['1', '2', '8'] n) ∧ ∀ n : Nat, n ≤ 127 → ¬ NumberText ['z'] n := by
  simp only [← readNumber_eq_some_iff]
  decide

/-- The last number that meets each kind of condition, and the first that does not, with a leading zero. -/
theorem witness_PseudoLinesGiveTheirExpansion :
    NumberText ['6', '4'] 64 ∧ NumberText ['0', '6', '5'] 65 ∧ NumberText ['0', 'x', '1', 'f'] 31 ∧
    ['z', 'E', 'x', 'T'].map Char.toUpper = ['Z', 'E', 'X', 'T'] := by
  simp only [← readNumber_eq_some_iff]
  decide

end Sys2Proof.Tests
end

section
/-! What an instruction, a settling and a step can do, said once and for every state: the signals settle on the answer of
10_state.md R20 and R73 to the request on the pins, and nothing else changes. -/

namespace Sys2Proof.Machine

/-- A domain check answers alike in every state, so its response can be read off at a probe. -/
theorem respondIf_eq_probe (ok : Bool) (r : Word) (s : State) (ctl : Ctl) (a b : Word) :
    respondIf ok r s =
      .next { s with front := (nextState (respondIf ok r (probe ctl a b))).bind (·.front) } := by
  simp [respondIf_eq]

/-- Every instruction completes in every state and sets `front` alone, to its response on A and B (R20, R23, R305). -/
theorem exec_eq_perform (i : Instr) (s : State) :
    exec i s = .next { s with front := perform i s.pins.a s.pins.b } := by
  cases i with
  | mask | extract | replace | test | sext | rol32 | rol64 | revbits => exact respondIf_eq_probe _ _ s 0 _ _
  | npow2 | clz | bitlen | bswap32 | bswap64 | mulh | mulhu | mulhsu | reserved => rfl

/-- The answer to a control word that decodes is the response of its operation. -/
theorem answer_of_decode {ctl : Ctl} {i : Instr} (h : decode ctl = .ok i) (a b : Word) :
    answer ctl a b = perform i a b := by
  simp [answer, settle_of_decode (probe_presents ctl a b) h, exec_eq_perform]

/-- A control word with a reserved bit set is answered with ILLEGAL_OP (R67). -/
theorem answer_of_reject {ctl : Ctl} {e : Reject} (h : decode ctl = .error e) (a b : Word) :
    answer ctl a b = some ⟨0, 0b01⟩ := by
  simp [answer, settle_of_reject (probe_presents ctl a b) h]

/-- A presented request settles on the answer to it alone, whatever the state (R20, R72). -/
theorem settle_of_presents {s : State} (h : s.presents = true) :
    settle s = .next { s with front := answer s.pins.ctl s.pins.a s.pins.b } := by
  cases hd : decode s.pins.ctl with
  | ok i => rw [settle_of_decode h hd, exec_eq_perform, answer_of_decode hd]
  | error e => rw [settle_of_reject h hd, answer_of_reject hd]

/-- Settling completes in every state, and changes `front` alone. -/
theorem settle_completes (s : State) : ∃ f : Option Response, settle s = .next { s with front := f } := by
  cases h : s.presents with
  | true => exact ⟨_, settle_of_presents h⟩
  | false => exact ⟨none, settle_of_not_presents h⟩

/-- A step completes in every state: but for `front`, it is the rising edge (R28, R341, R343). -/
theorem step_completes (s : State) : ∃ f : Option Response, step s = .next { s.clockEdge with front := f } :=
  settle_completes s.clockEdge

end Sys2Proof.Machine

open Sys2Proof.Machine in
/-- Settles O11: a step is the rising edge and then a settling, which completes and changes `front` alone. -/
theorem everyStepCompletes : Obligations.EveryStepCompletes := by
  intro s
  obtain ⟨f, hstep⟩ := step_completes s
  exact ⟨_, hstep, clockEdge_lat s, clockEdge_pins s, clockEdge_inputs s, clockEdge_slots s⟩

end

section
/-! The responses the unit can give (60_exceptions.md R301 to R303), and settled signals: what settling leaves in `front`,
and that settling twice is settling once (10_state.md R28). -/

namespace Sys2Proof.Machine

/-- A response under OK is one the unit can give, whatever its RESULT (R301). -/
theorem Response.given_ok (w : Word) : Response.Given ⟨w, 0b00⟩ :=
  ⟨show errOk ≠ 3 by decide, fun h => absurd rfl h⟩

/-- RESULT 0 is given under every ERR but 0b11 (R302, R303). -/
theorem Response.given_zero {e : ErrCode} (h : e ≠ 3) : Response.Given ⟨0, e⟩ :=
  ⟨h, fun _ => rfl⟩

/-- A domain check answers with a response the unit can give, inside the domain and outside it. -/
theorem respondIf_given (ok : Bool) (w : Word) (s : State) :
    ∃ r : Response, respondIf ok w s = .next { s with front := some r } ∧ r.Given := by
  cases ok with
  | true => exact ⟨_, respondIf_of_inDomain rfl w s, Response.given_ok w⟩
  | false => exact ⟨_, respondIf_of_outside rfl w s, Response.given_zero (by decide)⟩

/-- Every instruction answers in every state, with a response the unit can give. -/
theorem exec_given (i : Instr) (s : State) :
    ∃ r : Response, exec i s = .next { s with front := some r } ∧ r.Given := by
  cases i with
  | mask | extract | replace | test | sext | rol32 | rol64 | revbits => exact respondIf_given _ _ s
  | npow2 | clz | bitlen | bswap32 | bswap64 | mulh | mulhu | mulhsu => exact ⟨_, rfl, Response.given_ok _⟩
  | reserved => exact ⟨_, rfl, Response.given_zero (by decide)⟩

/-- The response of an operation exists and is one the unit can give. -/
theorem perform_given (i : Instr) (a b : Word) : ∃ r : Response, perform i a b = some r ∧ r.Given := by
  obtain ⟨r, hexec, hr⟩ := exec_given i (probe 0 a b)
  exact ⟨r, by rw [perform, hexec]; rfl, hr⟩

/-- The answer to a request exists and is one the unit can give (R72, R301 to R303). -/
theorem answer_given (ctl : Ctl) (a b : Word) : ∃ r : Response, answer ctl a b = some r ∧ r.Given := by
  cases hd : decode ctl with
  | ok i => rw [answer_of_decode hd]; exact perform_given i a b
  | error e => exact ⟨_, answer_of_reject hd a b, Response.given_zero (by decide)⟩

/-- Settling, whether or not a request is presented. -/
theorem settle_eq (s : State) : settle s =
    .next { s with front := if s.presents then answer s.pins.ctl s.pins.a s.pins.b else none } := by
  cases h : s.presents with
  | true => exact settle_of_presents h
  | false => exact settle_of_not_presents h

/-- Settled signals: `front` is the answer to the request on the pins, or none without one. -/
theorem settled_iff (s : State) :
    s.Settled ↔ s.front = if s.presents then answer s.pins.ctl s.pins.a s.pins.b else none := by
  rw [State.Settled, settle_eq, Host.Outcome.next.injEq]
  exact ⟨fun h => (congrArg State.front h).symm, fun h => by rw [← h]⟩

/-- Settling gives settled signals: it changes neither `lat` nor the pins, which are all that it reads. -/
theorem settled_of_settle {s t : State} (h : settle s = .next t) : t.Settled := by
  rw [settle_eq, Host.Outcome.next.injEq] at h
  subst h
  exact (settled_iff _).mpr rfl

/-- The response in a settled `front` is one the unit can give. -/
theorem given_of_settled {s : State} {r : Response} (h : s.Settled) (hr : s.front = some r) : r.Given := by
  rw [settled_iff] at h
  split at h
  · obtain ⟨r', hans, hgiven⟩ := answer_given s.pins.ctl s.pins.a s.pins.b
    obtain rfl : r' = r := Option.some.inj (by rw [← hans, ← h, hr])
    exact hgiven
  · simp [h] at hr

/-- With `LAT` = 0 the settled output is the answer to the current inputs (R28, R340). -/
theorem response_of_settled_lat_zero {s : State} (h : s.Settled) (hlat : s.lat = 0) :
    s.response = answer s.pins.ctl s.pins.a s.pins.b := by
  have hp : s.presents = true := (presents_iff s).mpr (.inr hlat)
  rw [response_of_lat_zero hlat, (settled_iff s).mp h, if_pos hp]

/-- The signals after a step are settled. -/
theorem step_settled {s t : State} (h : step s = .next t) : t.Settled := settled_of_settle h

/-- A step's slots are those of the rising edge, and it never changes `LAT`. -/
theorem step_slots_lat {s t : State} (h : step s = .next t) : t.slots = s.slotsAfterEdge ∧ t.lat = s.lat := by
  obtain ⟨f, hstep⟩ := step_completes s
  cases hstep.symm.trans h
  exact ⟨rfl, rfl⟩

/-- A step keeps the invariant's bound on responses: those in the slots were in the machine before, and the one in `front`
is an answer. -/
theorem step_responsesGiven {s t : State} (hs : s.ResponsesGiven) (h : step s = .next t) : t.ResponsesGiven := by
  intro r hr
  rcases List.mem_cons.mp hr with hfront | hslot
  · exact given_of_settled (step_settled h) hfront.symm
  · rw [(step_slots_lat h).1] at hslot
    exact hs r (mem_slotsAfterEdge hslot)

/-- The signals of `State.resetWith` are settled: no request with `LAT` > 0, and the answer to MASK 0 with `LAT` = 0. -/
theorem resetWith_settled (lat : Nat) : (State.resetWith lat).Settled := by
  cases lat with
  | zero => exact (settled_iff _).mpr (by decide)
  | succ n => exact (settled_iff _).mpr rfl

/-- The one response the state after reset can hold is that of MASK 0, in `front`, with `LAT` = 0. -/
theorem resetWith_responsesGiven (lat : Nat) : (State.resetWith lat).ResponsesGiven := by
  intro r hr
  rcases List.mem_cons.mp hr with hfront | hslot
  · exact given_of_settled (resetWith_settled lat) hfront.symm
  · exact absurd (List.eq_of_mem_replicate hslot) (by simp)

end Sys2Proof.Machine
end

section
/-! The request that the caller presents next, as a step finds it after the rising edge (10_state.md R28). -/

namespace Sys2Proof.Machine

variable {s : State} {p : Pins} {rest : List Pins}

/-- The state after the rising edge, when the caller's next input is `p`. -/
theorem clockEdge_of_cons (h : s.inputs = p :: rest) : s.clockEdge =
    { lat := s.lat, pins := p, front := none, inputs := rest
      slots := if s.pins.rst then List.replicate s.lat none else (s.front :: s.slots).take s.lat } := by
  rw [State.clockEdge, nextPins_of_cons h, h, State.slotsAfterEdge, State.stages, List.tail_cons]

/-- Whether the next input is a request is read off that input and `LAT`. -/
theorem clockEdge_presents_iff (h : s.inputs = p :: rest) :
    s.clockEdge.presents = true ↔ (p.reqValid = true ∧ p.rst = false) ∨ s.lat = 0 := by
  rw [presents_iff, clockEdge_pins, clockEdge_lat, nextPins_of_cons h]

/-- A step runs the operation of the request that the caller presents next, after the rising edge (R28, R73). -/
theorem step_of_decode {i : Instr} (h : s.inputs = p :: rest)
    (hreq : (p.reqValid = true ∧ p.rst = false) ∨ s.lat = 0) (hd : decode p.ctl = .ok i) :
    step s = exec i s.clockEdge := by
  have hd' : decode s.clockEdge.pins.ctl = .ok i := by rwa [clockEdge_pins, nextPins_of_cons h]
  rw [step_eq_settle, settle_of_decode ((clockEdge_presents_iff h).mpr hreq) hd']

/-- A table word that decodes is a control word that decodes. -/
theorem decode_of_decodeTableWord {nbits w : Nat} {i : Instr} (h : decodeTableWord nbits w = some i) :
    decode (BitVec.ofNat 32 (w % 2 ^ nbits)) = .ok i := by
  unfold decodeTableWord at h
  split at h
  next j hd => rwa [Option.some.inj h] at hd
  next => nomatch h

/-- Reducing a table word of 32 bits to 32 bits changes nothing in the control word. -/
theorem ofNat_mod_word (w : Nat) : BitVec.ofNat 32 (w % 2 ^ 32) = BitVec.ofNat 32 w :=
  BitVec.eq_of_toNat_eq (by simp)

end Sys2Proof.Machine
end

section
/-! What the caller's reads of the outputs give (10_state.md R29, 60_exceptions.md R314). -/

namespace Sys2Proof.Machine

variable {s : State} {r : Response}

theorem readResponse_of_none (h : s.response = none) : readResponse s = .fault .responseNotValid := by
  simp [readResponse, h]

theorem readResponse_of_some (h : s.response = some r) : readResponse s = .next r := by
  simp [readResponse, h]

theorem useResult_of_none (h : s.response = none) : useResult s = .fault .responseNotValid := by
  simp [useResult, h]

theorem useResult_of_ok (h : s.response = some r) (he : r.err = errOk) : useResult s = .next r.result := by
  simp [useResult, h, he]

/-- Under any ERR but OK the use of RESULT faults, with the fault of that ERR (R314). -/
theorem useResult_of_error (h : s.response = some r) (he : r.err ≠ errOk) :
    useResult s = .fault (if r.err = errIllegalOp then .illegalOpResponse else .domainResponse) := by
  simp only [useResult, h, if_neg he]
  split <;> rfl

/-- RESULT is given exactly where it is safe to use (R348). -/
theorem safeToUse_iff (s : State) : s.SafeToUse ↔ ∃ v : Word, useResult s = .next v := by
  constructor
  · rintro ⟨r, hr, he⟩
    exact ⟨r.result, useResult_of_ok hr he⟩
  · rintro ⟨v, hv⟩
    cases hr : s.response with
    | none => rw [useResult_of_none hr] at hv; nomatch hv
    | some r =>
      by_cases he : r.err = errOk
      · exact ⟨r, hr, he⟩
      · rw [useResult_of_error hr he] at hv; nomatch hv

end Sys2Proof.Machine

open Sys2Proof.Machine

/-- Settles O15: the edge keeps the number of slots and their responses, settling gives settled signals, and the one new
response is an answer, which the unit can give. -/
theorem stepKeepsTheInvariant : Obligations.StepKeepsTheInvariant := by
  rintro s t ⟨hlength, -, hgiven⟩ hstep
  obtain ⟨hslots, hlat⟩ := step_slots_lat hstep
  exact ⟨by rw [hslots, hlat, slotsAfterEdge_length hlength], step_settled hstep, step_responsesGiven hgiven hstep⟩

/-- Settles O10: after the rising edge the signals settle on the answer to the request on the pins, or on none. -/
theorem responseIsAFunctionOfTheRequestAlone : Obligations.ResponseIsAFunctionOfTheRequestAlone := by
  intro s p rest hinputs
  refine ⟨_, settle_eq s.clockEdge, fun hreq => ?_, fun hlat hno => ?_⟩
  · obtain ⟨r, hans, -⟩ := answer_given p.ctl p.a p.b
    simp [(clockEdge_presents_iff hinputs).mpr hreq, nextPins_of_cons hinputs, hans]
  · have hp : ¬ s.clockEdge.presents = true := by
      rw [clockEdge_presents_iff hinputs]
      rintro (⟨hvalid, hrst⟩ | hzero)
      · simp [hvalid, hrst] at hno
      · exact hlat hzero
    exact if_neg hp

/-- Settles O12: an instruction sets `front` alone, to its response on A and B, which exists. -/
theorem everyInstructionChangesOnlyItsResponse : Obligations.EveryInstructionChangesOnlyItsResponse := by
  intro i s
  obtain ⟨r, hr, -⟩ := perform_given i s.pins.a s.pins.b
  exact ⟨r, by rw [exec_eq_perform, hr], fun s' ha hb => by rw [exec_eq_perform, ha, hb, hr]⟩

/-- Settles O8: a step settles the state after the rising edge, where the presented control word is run; a table word
placed by `withFetchWord` is such a control word. -/
theorem stepRunsTheDecodedInstruction : Obligations.StepRunsTheDecodedInstruction := by
  refine ⟨fun s p rest i hinputs hreq hdecode => ?_, fun s w i hword => ?_⟩
  · rw [step_of_decode hinputs hreq hdecode, clockEdge_of_cons hinputs]
  · have hinputs := withFetchWord_inputs s 32 w
    rw [step_of_decode hinputs (.inl ⟨rfl, rfl⟩) (decode_of_decodeTableWord hword), clockEdge_of_cons hinputs,
      ofNat_mod_word]
    rfl

/-- Settles O13: with `LAT` > 0 the last slot is one of the cleared ones; with `LAT` = 0 the signals are settled. -/
theorem resetValues : Obligations.ResetValues := by
  refine fun lat => ⟨fun hpos => ⟨rfl, ?_⟩, fun hzero => response_of_settled_lat_zero (resetWith_settled lat) hzero⟩
  obtain ⟨n, rfl⟩ := Nat.exists_eq_add_one.mpr hpos
  simp [State.rspValid, response_of_lat_succ (resetWith_lat (n + 1))]

/-- Settles O14: every slot is cleared, and the signals are settled. -/
theorem resetHasTheInvariant : Obligations.ResetHasTheInvariant := fun lat =>
  ⟨List.length_replicate, resetWith_settled lat, resetWith_responsesGiven lat⟩

/-- Settles O22, by what each read gives when there is a response and when there is none. -/
theorem readingWithoutAResponseIsAFault : Obligations.ReadingWithoutAResponseIsAFault := by
  refine fun s => ⟨fun hinvalid => ?_, fun hvalid => ?_, safeToUse_iff s⟩
  · have hnone : s.response = none := Option.isNone_iff_eq_none.mp (by simpa [State.rspValid] using hinvalid)
    exact ⟨readResponse_of_none hnone, useResult_of_none hnone⟩
  · obtain ⟨r, hr⟩ := Option.isSome_iff_exists.mp hvalid
    exact ⟨r, hr, readResponse_of_some hr, useResult_of_ok hr, fun he => ⟨_, useResult_of_error hr he⟩⟩

end

section
/-! Responses leave in the order of their requests (10_state.md R47): in a cycle without reset the pipeline is a queue, read
oldest first as `slots.reverse`, which gives its oldest entry to the output and takes the presented request's response. -/

namespace Sys2Proof.Machine

variable {s t : State}

/-- Every state has a next one (R345). -/
theorem exists_step (s : State) : ∃ t : State, step s = .next t :=
  let ⟨_, hstep⟩ := step_completes s
  ⟨_, hstep⟩

/-- The slots after the edge of a cycle without reset: every stage but the oldest (R28, R343). -/
theorem step_slots_of_no_reset (hrst : s.pins.rst = false) (hstep : step s = .next t) :
    t.slots = s.stages.take s.lat := by
  simp [(step_slots_lat hstep).1, State.slotsAfterEdge, hrst]

/-- A step reads its pins off the caller's list, so no reset stays ahead. -/
theorem step_noResetAhead (hs : s.NoResetAhead) (hstep : step s = .next t) : t.NoResetAhead := by
  obtain ⟨-, hahead⟩ := hs
  obtain ⟨_, hcompletes⟩ := step_completes s
  cases hcompletes.symm.trans hstep
  cases hinputs : s.inputs with
  | nil => simp [State.NoResetAhead, nextPins_of_nil, hinputs]
  | cons p rest => simpa [State.NoResetAhead, nextPins_of_cons hinputs, hinputs] using hahead

/-- A cycle without reset moves the queue on by one: the response presented is its oldest entry, and the response of the
request presented becomes its youngest. -/
theorem response_cons_slots (hlength : s.slots.length = s.lat) (hrst : s.pins.rst = false) (hstep : step s = .next t) :
    s.response :: t.slots.reverse = s.slots.reverse ++ [s.front] := by
  have hlt : s.lat < s.stages.length := by simp [State.stages, hlength]
  have hresponse : s.response = s.stages[s.lat] := by simp [State.response, List.getElem?_eq_getElem hlt]
  have hall : s.stages.take (s.lat + 1) = s.stages := List.take_of_length_le (by simp [State.stages, hlength])
  calc s.response :: t.slots.reverse
      = (s.stages.take s.lat ++ [s.stages[s.lat]]).reverse := by
        rw [step_slots_of_no_reset hrst hstep, hresponse, List.reverse_append, List.reverse_singleton,
          List.singleton_append]
    _ = s.stages.reverse := by rw [List.take_append_getElem hlt, hall]
    _ = s.slots.reverse ++ [s.front] := List.reverse_cons

/-- The head of a queue comes out first, if it is a response. -/
theorem reduceOption_cons {α : Type} (x : Option α) (xs : List (Option α)) :
    (x :: xs).reduceOption = x.toList ++ xs.reduceOption := by
  rw [← List.singleton_append, List.reduceOption_append, List.reduceOption_singleton]

/-- The responses presented from this cycle on are this cycle's, if there is one, and then those from the next state. -/
theorem responsesIn_succ (hstep : step s = .next t) (n : Nat) :
    responsesIn (n + 1) s = s.response.toList ++ responsesIn n t := by
  simp [responsesIn, hstep]

/-- With settled signals the answer due to this cycle's request stands in `front`. -/
theorem answersDueIn_succ (hsettled : s.Settled) (hstep : step s = .next t) (n : Nat) :
    answersDueIn (n + 1) s = s.front.toList ++ answersDueIn n t := by
  have hfront := (settled_iff s).mp hsettled
  cases hpresents : s.presents <;> simp [answersDueIn, hstep, hpresents, hfront]

/-- While no request presented from now on can have reached the output, what leaves is what the queue holds, oldest first. -/
theorem responsesIn_of_le_lat (m : Nat) (hs : s.Inv) (hahead : s.NoResetAhead) (hm : m ≤ s.lat) :
    responsesIn m s = (s.slots.reverse.take m).reduceOption := by
  induction m generalizing s with
  | zero => rfl
  | succ m ih =>
    obtain ⟨t, hstep⟩ := exists_step s
    have ⟨hlength, _, _⟩ := hs
    have ⟨hrst, _⟩ := hahead
    have hlat : t.lat = s.lat := (step_slots_lat hstep).2
    calc responsesIn (m + 1) s
        = s.response.toList ++ (t.slots.reverse.take m).reduceOption := by
          rw [responsesIn_succ hstep, ih (stepKeepsTheInvariant s t hs hstep) (step_noResetAhead hahead hstep)
            (by omega)]
      _ = ((s.response :: t.slots.reverse).take (m + 1)).reduceOption := by
          rw [List.take_succ_cons, reduceOption_cons]
      _ = (s.slots.reverse.take (m + 1)).reduceOption := by
          rw [response_cons_slots hlength hrst hstep, List.take_append_of_le_length (by simpa [hlength] using hm)]

/-- From any state with the invariant, what leaves in `n + LAT` cycles is first what the queue holds, oldest first, and then
the answers to the requests presented in the first `n` cycles. -/
theorem responsesIn_add_lat (n : Nat) (hs : s.Inv) (hahead : s.NoResetAhead) :
    responsesIn (n + s.lat) s = s.slots.reverse.reduceOption ++ answersDueIn n s := by
  induction n generalizing s with
  | zero =>
    have hall : s.slots.reverse.take s.lat = s.slots.reverse := List.take_of_length_le (by simp [hs.1])
    rw [Nat.zero_add, responsesIn_of_le_lat s.lat hs hahead le_rfl, hall, answersDueIn, List.append_nil]
  | succ n ih =>
    have ⟨hlength, hsettled, _⟩ := hs
    obtain ⟨t, hstep⟩ := exists_step s
    have ⟨hrst, _⟩ := hahead
    have ht : t.Inv := stepKeepsTheInvariant s t hs hstep
    have hlat : t.lat = s.lat := (step_slots_lat hstep).2
    calc responsesIn (n + 1 + s.lat) s
        = s.response.toList ++ responsesIn (n + t.lat) t := by
          rw [Nat.add_right_comm, responsesIn_succ hstep, hlat]
      _ = (s.response :: t.slots.reverse).reduceOption ++ answersDueIn n t := by
          rw [ih ht (step_noResetAhead hahead hstep), reduceOption_cons, List.append_assoc]
      _ = s.slots.reverse.reduceOption ++ answersDueIn (n + 1) s := by
          rw [response_cons_slots hlength hrst hstep, List.reduceOption_append, List.reduceOption_singleton,
            answersDueIn_succ hsettled hstep, List.append_assoc]

end Sys2Proof.Machine

open Sys2Proof.Machine

/-- Settles O18: from a state whose slots are all empty, the queue has nothing to give before the answers due. -/
theorem responsesAnswerTheRequestsInOrder : Obligations.ResponsesAnswerTheRequestsInOrder := by
  intro s n hs hslots hahead
  rw [responsesIn_add_lat n hs hahead, hslots, List.reverse_replicate, List.reduceOption_replicate_none, List.nil_append]

namespace Sys2Proof.Tests

/-- After a reset, with `LAT` = 2, the caller presents CLZ of 1, then nothing for a cycle, then SEXT with `len` = 0. -/
def clzThenSext : State :=
  { State.resetWith 2 with
    inputs := [request 0x00000006 1, Pins.idle, request 0x00000004 5] }

/-- O18 of two requests with a gap between them, the second answered with DOMAIN: its premises hold, and both responses
leave in order within 4 + `LAT` cycles. -/
theorem responsesIn_clzThenSext : responsesIn (4 + 2) clzThenSext = [⟨63, 0b00⟩, ⟨0, 0b10⟩] := by
  have hinv : clzThenSext.Inv := ⟨rfl, rfl, resetWith_responsesGiven 2⟩
  have hahead : clzThenSext.NoResetAhead := ⟨rfl, by decide⟩
  have hanswers : answersDueIn 4 clzThenSext = [⟨63, 0b00⟩, ⟨0, 0b10⟩] := by decide
  rw [← hanswers]
  exact responsesAnswerTheRequestsInOrder clzThenSext 4 hinv rfl hahead

end Sys2Proof.Tests

end

section
/-! The control word (30_encoding.md R61 to R72): an instruction as the three fields its encoding writes, what a decoded
instruction is, and the masks that keep some fields of a control word and clear the others. -/

namespace Sys2Proof

variable {op pos len : Nat}

/-- The `pos` field that `encode` writes: 0 where R63 marks it `-`. -/
def Instr.posField : Instr → Nat
  | .extract pos _ | .replace pos _ | .test pos | .reserved _ pos _ => pos
  | _ => 0

/-- The `len` field that `encode` writes: 0 where R63 marks it `-`. -/
def Instr.lenField : Instr → Nat
  | .mask len | .extract _ len | .replace _ len | .sext len | .rol32 len | .rol64 len | .revbits len
  | .reserved _ _ len => len
  | _ => 0

/-- Encoding an instruction writes its number and its two fields (R70). -/
theorem encode_eq_encodeFields (i : Instr) : encode i = encodeFields i.opNumber i.posField i.lenField := by
  cases i <;> rfl

/-- The number and the fields of a well-formed instruction fit the control word (R62, R66). -/
theorem fields_le_of_wf {i : Instr} (h : i.wf = true) : i.opNumber ≤ 31 ∧ i.posField ≤ 127 ∧ i.lenField ≤ 127 := by
  cases i <;> simp_all [Instr.wf, Instr.opNumber, Instr.posField, Instr.lenField, fieldFits, opReserved]

/-- The number of a well-formed instruction selects it, with its fields (R65, R66). -/
theorem selectOp_fields {i : Instr} (h : i.wf = true) : selectOp i.opNumber i.posField i.lenField = i := by
  cases i with
  | reserved op pos len =>
    have hop : 16 ≤ op := by simp_all [Instr.wf, opReserved]
    exact selectOp_of_ge hop
  | _ => rfl

theorem decode_encode {i : Instr} (h : i.wf = true) : decode (encode i) = .ok i := by
  obtain ⟨hop, hpos, hlen⟩ := fields_le_of_wf h
  rw [encode_eq_encodeFields, decode_encodeFields hop hpos hlen, selectOp_fields h]

/-- All that the decoder answers an instruction for: no reserved bit, and the operation that the fields select. -/
theorem decode_eq_ok_iff (ctl : Ctl) (i : Instr) :
    decode ctl = .ok i ↔ Ctl.rsv ctl = 0 ∧ selectOp (Ctl.op ctl) (Ctl.pos ctl) (Ctl.len ctl) = i := by
  by_cases h : Ctl.rsv ctl = 0
  · rw [decode_of_rsv_zero h, Except.ok.injEq, and_iff_right h]
  · rw [decode_of_rsv_ne h]
    exact ⟨nofun, fun hi => absurd hi.1 h⟩

theorem opNumber_selectOp (op pos len : Nat) : (selectOp op pos len).opNumber = op := by
  unfold selectOp
  split <;> rfl

/-- What fields that fit select is well-formed. -/
theorem selectOp_wf (hop : op ≤ 31) (hpos : pos ≤ 127) (hlen : len ≤ 127) : (selectOp op pos len).wf = true := by
  rcases Nat.lt_or_ge op 16 with h | h
  · interval_cases op <;> simp [selectOp, Instr.wf, fieldFits, hpos, hlen]
  · simp [selectOp_of_ge h, Instr.wf, opReserved, fieldFits, h, hop, hpos, hlen]

/-! ### Masks of a control word, field by field -/

theorem op_and (x y : Ctl) : Ctl.op (x &&& y) = Ctl.op x &&& Ctl.op y := by
  simp [Ctl.op, BitVec.extractLsb'_and]

theorem pos_and (x y : Ctl) : Ctl.pos (x &&& y) = Ctl.pos x &&& Ctl.pos y := by
  simp [Ctl.pos, BitVec.extractLsb'_and]

theorem len_and (x y : Ctl) : Ctl.len (x &&& y) = Ctl.len x &&& Ctl.len y := by
  simp [Ctl.len, BitVec.extractLsb'_and]

theorem rsv_and (x y : Ctl) : Ctl.rsv (x &&& y) = Ctl.rsv x &&& Ctl.rsv y :=
  BitVec.extractLsb'_and

theorem op_or (x y : Ctl) : Ctl.op (x ||| y) = Ctl.op x ||| Ctl.op y := by
  simp [Ctl.op, BitVec.extractLsb'_or]

theorem pos_or (x y : Ctl) : Ctl.pos (x ||| y) = Ctl.pos x ||| Ctl.pos y := by
  simp [Ctl.pos, BitVec.extractLsb'_or]

theorem len_or (x y : Ctl) : Ctl.len (x ||| y) = Ctl.len x ||| Ctl.len y := by
  simp [Ctl.len, BitVec.extractLsb'_or]

/-- A mask of a control word without reserved bits is a mask of each of its fields. -/
theorem and_eq_encodeFields {ctl : Ctl} (h : Ctl.rsv ctl = 0) (mask : Ctl) : ctl &&& mask =
    encodeFields (Ctl.op ctl &&& Ctl.op mask) (Ctl.pos ctl &&& Ctl.pos mask) (Ctl.len ctl &&& Ctl.len mask) := by
  have hrsv : Ctl.rsv (ctl &&& mask) = 0 := by rw [rsv_and, h]; exact BitVec.zero_and
  rw [← encodeFields_of_fields hrsv, op_and, pos_and, len_and]

theorem and_31_of_le {n : Nat} (h : n ≤ 31) : n &&& 31 = n :=
  Nat.and_two_pow_sub_one_of_lt_two_pow (n := 5) (by omega)

theorem and_127_of_le {n : Nat} (h : n ≤ 127) : n &&& 127 = n :=
  Nat.and_two_pow_sub_one_of_lt_two_pow (n := 7) (by omega)

/-- The bits of CTL[31:19], of `op` and of the fields that an operation reads: all but the ignored fields (R68). -/
def Instr.readBits (i : Instr) : Ctl := 0xFFF8001F ||| i.usedFields

/-- The fields of the masks that `readBits` is made of. -/
theorem op_masks :
    Ctl.op 0xFFF8001F = 31 ∧ Ctl.op 0 = 0 ∧ Ctl.op 0x7F000 = 0 ∧ Ctl.op 0xFE0 = 0 ∧ Ctl.op 0x7FFE0 = 0 := by
  decide

theorem pos_masks :
    Ctl.pos 0xFFF8001F = 0 ∧ Ctl.pos 0 = 0 ∧ Ctl.pos 0x7F000 = 0 ∧ Ctl.pos 0xFE0 = 127 ∧ Ctl.pos 0x7FFE0 = 127 := by
  decide

theorem len_masks :
    Ctl.len 0xFFF8001F = 0 ∧ Ctl.len 0 = 0 ∧ Ctl.len 0x7F000 = 127 ∧ Ctl.len 0xFE0 = 0 ∧ Ctl.len 0x7FFE0 = 127 := by
  decide

theorem op_readBits (i : Instr) : Ctl.op i.readBits = 31 := by
  cases i <;> simp only [Instr.readBits, Instr.usedFields, op_or, op_masks, Nat.or_zero]

/-- The `pos` that an operation keeps is the one that its mask leaves. -/
theorem posField_selectOp (hpos : pos ≤ 127) :
    (selectOp op pos len).posField = pos &&& Ctl.pos (selectOp op pos len).readBits := by
  unfold selectOp
  split <;> simp only [Instr.posField, Instr.readBits, Instr.usedFields, pos_or, pos_masks, Nat.zero_or, Nat.and_zero,
    and_127_of_le hpos]

/-- The `len` that an operation keeps is the one that its mask leaves. -/
theorem lenField_selectOp (hlen : len ≤ 127) :
    (selectOp op pos len).lenField = len &&& Ctl.len (selectOp op pos len).readBits := by
  unfold selectOp
  split <;> simp only [Instr.lenField, Instr.readBits, Instr.usedFields, len_or, len_masks, Nat.zero_or, Nat.and_zero,
    and_127_of_le hlen]

/-- What a control word without reserved bits selects is encoded as that word, the ignored fields cleared (R68, R70). -/
theorem encode_selectOp {ctl : Ctl} (h : Ctl.rsv ctl = 0) :
    encode (selectOp (Ctl.op ctl) (Ctl.pos ctl) (Ctl.len ctl)) =
      ctl &&& (selectOp (Ctl.op ctl) (Ctl.pos ctl) (Ctl.len ctl)).readBits := by
  rw [encode_eq_encodeFields, and_eq_encodeFields h, op_readBits, and_31_of_le (op_le ctl), opNumber_selectOp,
    posField_selectOp (pos_le ctl), lenField_selectOp (len_le ctl)]

/-- A word and a request of R71: the word decodes to the request that is encoded as it. -/
theorem encode_and_decode {i : Instr} {ctl : Ctl} (hwf : i.wf = true) (h : encode i = ctl) :
    encode i = ctl ∧ decode ctl = .ok i :=
  ⟨h, h ▸ decode_encode hwf⟩

end Sys2Proof

namespace Sys2Proof.Machine

/-- A step answers the control word that the caller presents next with ILLEGAL_OP, if it is rejected (R67). -/
theorem step_of_reject {s : State} {p : Pins} {rest : List Pins} {e : Reject} (h : s.inputs = p :: rest)
    (hreq : (p.reqValid = true ∧ p.rst = false) ∨ s.lat = 0) (hd : decode p.ctl = .error e) :
    step s = .next { s.clockEdge with front := some ⟨0, 0b01⟩ } := by
  have hd' : decode s.clockEdge.pins.ctl = .error e := by rwa [clockEdge_pins, nextPins_of_cons h]
  rw [step_eq_settle, settle_of_reject ((clockEdge_presents_iff h).mpr hreq) hd']

end Sys2Proof.Machine

open Sys2Proof Sys2Proof.Machine

/-- Settles O1: encoding writes the number and the fields of the instruction, and the decoder selects it by them. -/
theorem decodeOfEncodeIsTheInstruction : Obligations.DecodeOfEncodeIsTheInstruction := fun _ => decode_encode

/-- Settles O2: an instruction is decoded from a word without reserved bits, whose fields fit, and is encoded as the
fields that its mask leaves. -/
theorem encodeOfDecodeKeepsEveryUsedBit : Obligations.EncodeOfDecodeKeepsEveryUsedBit := by
  intro ctl i hdecode
  obtain ⟨hrsv, rfl⟩ := (decode_eq_ok_iff ctl i).mp hdecode
  exact ⟨selectOp_wf (op_le ctl) (pos_le ctl) (len_le ctl), encode_selectOp hrsv⟩

/-- Settles O3, field by field. -/
theorem encodedFieldsReadBack : Obligations.EncodedFieldsReadBack := fun _ _ _ hop hpos hlen =>
  ⟨encodeFields_toNat hop hpos hlen, op_encodeFields hop hpos hlen, pos_encodeFields hop hpos hlen,
    len_encodeFields hop hpos hlen, rsv_encodeFields hop hpos hlen⟩

/-- Settles O5: a control word is rejected if it has a reserved bit set and else selects by its `op`; every request is
answered. -/
theorem everyControlWordIsDecodedAndAnswered : Obligations.EveryControlWordIsDecodedAndAnswered := by
  intro ctl
  refine ⟨?_, fun a b => ?_⟩
  · by_cases hrsv : Ctl.rsv ctl = 0
    · exact .inr ⟨hrsv, _, decode_of_rsv_zero hrsv, opNumber_selectOp _ _ _⟩
    · exact .inl ⟨hrsv, decode_of_rsv_ne hrsv⟩
  · obtain ⟨r, hanswer, -⟩ := answer_given ctl a b
    exact ⟨r, hanswer⟩

/-- Settles O4: each word is the encoding of its request, and so decodes to it. -/
theorem exampleEncodings : Obligations.ExampleEncodings :=
  ⟨encode_and_decode rfl rfl, encode_and_decode rfl rfl, encode_and_decode rfl rfl, encode_and_decode rfl rfl,
    encode_and_decode rfl rfl, encode_and_decode rfl rfl, encode_and_decode rfl rfl, encode_and_decode rfl rfl,
    encode_and_decode rfl rfl, encode_and_decode rfl rfl⟩

/-- Settles O49: the number selects the reserved operation, whose meaning is to raise ILLEGAL_OP. -/
theorem reservedOperationsGiveIllegalOp : Obligations.ReservedOperationsGiveIllegalOp :=
  fun s _ _ _ hge hle hpos hlen => ⟨selectOp_of_ge hge ▸ decode_encodeFields hle hpos hlen, raiseIllegalOp_eq s⟩

/-- Settles O9: a control word with a reserved bit set is rejected, after the rising edge. -/
theorem reservedBitsGiveIllegalOp : Obligations.ReservedBitsGiveIllegalOp := by
  intro s p rest hinputs hreq hrsv
  rw [step_of_reject hinputs hreq (decode_of_rsv_ne hrsv), clockEdge_of_cons hinputs]

end

section
/-! The opcode table (30_encoding.md R65, spec/opcode_table.json) against the decoder: the row a control word matches is
the row of its `op`, and it matches that row exactly when no reserved bit is set. -/

namespace Sys2Proof

variable {ctl : Ctl}

/-- The row of the reserved operation numbers (R66). -/
def reservedRow : OpRow := ⟨"reserved_op_16-31", 0x00000010, 0xFFF80010⟩

/-- The row of an operation number (R65). -/
def rowOf (op : Nat) : OpRow :=
  if op < 16 then ⟨(selectOp op 0 0).mnemonic, BitVec.ofNat 32 op, 0xFFF8001F⟩ else reservedRow

theorem rowOf_of_ge {op : Nat} (h : 16 ≤ op) : rowOf op = reservedRow := if_neg (by omega)

/-- The opcode table holds the rows of the numbers 0 to 16, the last one for every reserved number. -/
theorem opcodeTable_eq : opcodeTable = (List.range 17).map rowOf := by decide

theorem mem_opcodeTable_iff (row : OpRow) : row ∈ opcodeTable ↔ ∃ op ≤ 16, rowOf op = row := by
  simp [opcodeTable_eq, Nat.lt_succ_iff]

/-- The mnemonic of an operation is that of its row, whatever its fields. -/
theorem mnemonic_rowOf (op pos len : Nat) : (rowOf op).mnemonic = (selectOp op pos len).mnemonic := by
  rcases Nat.lt_or_ge op 16 with h | h
  · interval_cases op <;> rfl
  · rw [rowOf_of_ge h, selectOp_of_ge h]; rfl

/-- A row's mask keeps CTL[31:19] and bits of `op` alone; what it must leave is a number's control word. -/
theorem and_rowMask_eq_iff {mask : Ctl} {n : Nat} (hrsv : Ctl.rsv mask = BitVec.allOnes 13) (hpos : Ctl.pos mask = 0)
    (hlen : Ctl.len mask = 0) (hn : n ≤ 31) :
    ctl &&& mask = encodeFields n 0 0 ↔ Ctl.rsv ctl = 0 ∧ Ctl.op ctl &&& Ctl.op mask = n := by
  constructor
  · intro h
    have hop := congrArg Ctl.op h
    have hreserved := congrArg Ctl.rsv h
    rw [op_and, op_encodeFields hn (by omega) (by omega)] at hop
    rw [rsv_and, hrsv, BitVec.and_allOnes, rsv_encodeFields hn (by omega) (by omega)] at hreserved
    exact ⟨hreserved, hop⟩
  · rintro ⟨hreserved, hop⟩
    rw [and_eq_encodeFields hreserved, hop, hpos, hlen, Nat.and_zero, Nat.and_zero]

/-- The mask of R65, of a number's own row. -/
theorem and_opMask_eq_iff {n : Nat} (hn : n ≤ 31) :
    ctl &&& 0xFFF8001F = encodeFields n 0 0 ↔ Ctl.rsv ctl = 0 ∧ Ctl.op ctl = n := by
  have hmask : Ctl.op 0xFFF8001F = 31 := by decide
  rw [and_rowMask_eq_iff (by decide) (by decide) (by decide) hn, hmask, and_31_of_le (op_le ctl)]

/-- Bit 4 of `op` tells the reserved numbers (R66). -/
theorem and_16_eq_iff {n : Nat} (h : n ≤ 31) : n &&& 16 = 16 ↔ 16 ≤ n := by
  interval_cases n <;> decide

/-- The mask of the reserved row. -/
theorem and_reservedMask_eq_iff : ctl &&& 0xFFF80010 = encodeFields 16 0 0 ↔ Ctl.rsv ctl = 0 ∧ 16 ≤ Ctl.op ctl := by
  have hmask : Ctl.op 0xFFF80010 = 16 := by decide
  rw [and_rowMask_eq_iff (by decide) (by decide) (by decide) (by omega), hmask, and_16_eq_iff (op_le ctl)]

/-- A control word matches a row exactly when it has no reserved bit and the row is that of its `op`, the reserved row
being that of 16 and above. -/
theorem accepts_rowOf_iff {n : Nat} (hn : n ≤ 16) :
    (rowOf n).accepts ctl = true ↔ Ctl.rsv ctl = 0 ∧ min (Ctl.op ctl) 16 = n := by
  rcases Nat.lt_or_eq_of_le hn with h | rfl
  · have hrow : rowOf n = ⟨(selectOp n 0 0).mnemonic, encodeFields n 0 0, 0xFFF8001F⟩ := by
      simp [rowOf, h, encodeFields]
    rw [hrow, OpRow.accepts, beq_iff_eq]
    exact (and_opMask_eq_iff (by omega)).trans (and_congr_right fun _ => by omega)
  · rw [rowOf_of_ge le_rfl, OpRow.accepts, beq_iff_eq]
    exact and_reservedMask_eq_iff.trans (and_congr_right fun _ => min_eq_right_iff.symm)

theorem rowOf_min (op : Nat) : rowOf (min op 16) = rowOf op := by
  rcases Nat.lt_or_ge op 16 with h | h
  · rw [Nat.min_eq_left h.le]
  · rw [Nat.min_eq_right h, rowOf_of_ge h, rowOf_of_ge le_rfl]

/-- The row of the table that a control word matches is that of its `op`, and no reserved bit is set. -/
theorem eq_rowOf_of_accepts {row : OpRow} (hrow : row ∈ opcodeTable) (h : row.accepts ctl = true) :
    Ctl.rsv ctl = 0 ∧ row = rowOf (Ctl.op ctl) := by
  obtain ⟨n, hn, rfl⟩ := (mem_opcodeTable_iff row).mp hrow
  obtain ⟨hrsv, rfl⟩ := (accepts_rowOf_iff hn).mp h
  exact ⟨hrsv, rowOf_min _⟩

end Sys2Proof

open Sys2Proof

/-- Settles O6: the one row that a control word can match is that of its `op`, whose mnemonic is that of what it
selects. -/
theorem opcodeTableRowsDecode : Obligations.OpcodeTableRowsDecode := by
  refine ⟨fun ctl row hrow haccepts => ?_, fun ctl i hdecode => ?_,
    fun ctl row row' hrow hrow' haccepts haccepts' => ?_⟩
  · obtain ⟨hrsv, rfl⟩ := eq_rowOf_of_accepts hrow haccepts
    exact ⟨_, decode_of_rsv_zero hrsv, (mnemonic_rowOf _ _ _).symm⟩
  · obtain ⟨hrsv, rfl⟩ := (decode_eq_ok_iff ctl i).mp hdecode
    have hle : min (Ctl.op ctl) 16 ≤ 16 := Nat.min_le_right _ _
    exact ⟨rowOf (min (Ctl.op ctl) 16), (mem_opcodeTable_iff _).mpr ⟨_, hle, rfl⟩,
      (accepts_rowOf_iff hle).mpr ⟨hrsv, rfl⟩, (congrArg OpRow.mnemonic (rowOf_min _)).trans (mnemonic_rowOf _ _ _)⟩
  · rw [(eq_rowOf_of_accepts hrow haccepts).2, (eq_rowOf_of_accepts hrow' haccepts').2]

end

section
/-! Ignored inputs (30_encoding.md R68). The fields that an operation ignores are not in the instruction, so decoding
two words that differ in them gives the same; an operand that it ignores is not read by its meaning. -/

namespace Sys2Proof.Machine

variable {a a' b b' r : Word} {ok : Bool} {i i' : Instr}

/-- The response of an operation that checks its domain. -/
theorem perform_of_checked (h : exec i (probe 0 a b) = respondIf ok r (probe 0 a b)) :
    perform i a b = some (if ok then ⟨r, 0b00⟩ else ⟨0, 0b10⟩) := by
  rw [perform, h, respondIf_eq]; rfl

/-- Two operations with the same check and the same result give the same response. -/
theorem perform_eq_of_checked (h : exec i (probe 0 a b) = respondIf ok r (probe 0 a b))
    (h' : exec i' (probe 0 a' b') = respondIf ok r (probe 0 a' b')) : perform i a b = perform i' a' b' :=
  (perform_of_checked h).trans (perform_of_checked h').symm

/-- The operations to which R63 gives the operand B. -/
def readsB : Instr → Bool
  | .replace _ _ | .mulh | .mulhu | .mulhsu => true
  | _ => false

/-- An operation that does not read B gives the same response whatever B holds. -/
theorem perform_of_not_readsB (h : readsB i = false) (a b b' : Word) : perform i a b = perform i a b' := by
  cases i with
  | mask | extract | test | sext | rol32 | rol64 | revbits => exact perform_eq_of_checked rfl rfl
  | npow2 | clz | bitlen | bswap32 | bswap64 | reserved => rfl
  | replace | mulh | mulhu | mulhsu => nomatch h

theorem getLsbD_lowHalf (a : Word) (i : Nat) : (lowHalf a).getLsbD i = (decide (i < 32) && a.getLsbD i) := by
  simp [lowHalf]

/-- The bits that BSWAP32 moves are those of the low half. -/
theorem byteSwap32_congr (h : lowHalf a = lowHalf a') : byteSwap32 a = byteSwap32 a' := by
  apply BitVec.eq_of_getLsbD_eq
  intro i _
  rw [getLsbD_byteSwap32, getLsbD_byteSwap32]
  by_cases hi : i < 32
  · have hlow : 8 * (3 - i / 8) + i % 8 < 32 := by omega
    have hbit := congrArg (BitVec.getLsbD · (8 * (3 - i / 8) + i % 8)) h
    simp only [getLsbD_lowHalf, hlow, decide_true, Bool.true_and] at hbit
    rw [hbit]
  · simp [hi]

/-- ROL32 reads the low half of A alone (R181). -/
theorem perform_rol32_congr (h : lowHalf a = lowHalf a') (len : Nat) (b b' : Word) :
    perform (.rol32 len) a b = perform (.rol32 len) a' b' := by
  have hresult : rotateLeft32 a len = rotateLeft32 a' len := by rw [rotateLeft32, h, rotateLeft32]
  exact perform_eq_of_checked rfl (congrArg (respondIf _ · _) hresult.symm)

/-- BSWAP32 reads the low half of A alone (R187). -/
theorem perform_bswap32_congr (h : lowHalf a = lowHalf a') (b b' : Word) :
    perform .bswap32 a b = perform .bswap32 a' b' :=
  congrArg (fun r => some (⟨r, 0b00⟩ : Response)) (byteSwap32_congr h)

variable {op pos len pos' len' : Nat}

/-- Encoded requests are answered alike when the operations they select give the same response. -/
theorem answer_congr (hop : op ≤ 31) (hpos : pos ≤ 127) (hlen : len ≤ 127) (hpos' : pos' ≤ 127) (hlen' : len' ≤ 127)
    (h : perform (selectOp op pos len) a b = perform (selectOp op pos' len') a' b') :
    answer (encodeFields op pos len) a b = answer (encodeFields op pos' len') a' b' := by
  rw [answer_of_decode (decode_encodeFields hop hpos hlen), answer_of_decode (decode_encodeFields hop hpos' hlen'), h]

end Sys2Proof.Machine

open Sys2Proof Sys2Proof.Machine

/-- Settles O7: the fields that differ are not in the selected operation, which does not read the operand that
differs. -/
theorem ignoredInputsChangeNothing : Obligations.IgnoredInputsChangeNothing := by
  intro pos len pos' len' a a' b b' hpos hlen hpos' hlen'
  refine ⟨?mask, ?extract, ?test, ?posAndB, ?fieldsAndB, ?highHalf, ?fields⟩
  case mask => exact answer_congr (by decide) hpos hlen hpos' hlen (perform_eq_of_checked rfl rfl)
  case extract => exact answer_congr (by decide) hpos hlen hpos hlen (perform_of_not_readsB rfl a b b')
  case test => exact answer_congr (by decide) hpos hlen hpos hlen' (perform_of_not_readsB rfl a b b')
  case posAndB =>
    rintro op (rfl | rfl | rfl) <;>
      exact answer_congr (by decide) hpos hlen hpos' hlen (perform_of_not_readsB rfl a b b')
  case fieldsAndB =>
    rintro op (rfl | rfl | rfl | rfl) <;>
      exact answer_congr (by decide) hpos hlen hpos' hlen' (perform_of_not_readsB rfl a b b')
  case highHalf =>
    exact fun hlow => ⟨answer_congr (by decide) hpos hlen hpos' hlen (perform_rol32_congr hlow len b b'),
      answer_congr (by decide) hpos hlen hpos' hlen' (perform_bswap32_congr hlow b b')⟩
  case fields =>
    rintro op (rfl | rfl | rfl) <;> exact answer_congr (by decide) hpos hlen hpos' hlen' rfl

end

section
/-! The pseudo-operations (30_encoding.md R75): when each is expanded and when refused, and what its one request
computes. -/

namespace Sys2Proof.Machine

variable {p : Pseudo} {a b : Word}

theorem Pseudo.expand_of_ok (h : p.ok = true) : p.expand a = some (p.call a) := if_pos h

theorem Pseudo.expand_of_not_ok (h : ¬ p.ok = true) : p.expand a = none := if_neg h

/-- The RESULT of an operation that checks its domain, inside it. -/
theorem resultOf_of_checked {i : Instr} {ok : Bool} {r : Word} (hok : ok = true)
    (h : exec i (probe 0 a b) = respondIf ok r (probe 0 a b)) : resultOf i a b = some r := by
  rw [resultOf, perform_of_checked h, if_pos hok]; rfl

/-- The low bits, zero-extended. -/
theorem extractField_zero (a : Word) {len : Nat} (h : len ≤ 64) :
    extractField a 0 len = (a.extractLsb' 0 len).setWidth 64 := by
  apply BitVec.eq_of_getLsbD_eq
  intro i hi
  simp only [extractField, BitVec.ushiftRight_zero, BitVec.getLsbD_and, getLsbD_ones h, BitVec.getLsbD_setWidth,
    BitVec.getLsbD_extractLsb', hi, Nat.zero_add, decide_true, Bool.true_and, Bool.and_comm]

/-- A field of one bit is replaced under the mask of that bit. -/
theorem replaceField_one (a b : Word) (pos : Nat) :
    replaceField a pos 1 b = (a &&& ~~~((1 : Word) <<< pos)) ||| ((b &&& 1) <<< pos) := by
  rw [replaceField, show ones 1 = 1 by decide]

theorem replaceField_one_one (a : Word) (pos : Nat) : replaceField a pos 1 1 = a ||| ((1 : Word) <<< pos) := by
  rw [replaceField_one, BitVec.and_self]
  apply BitVec.eq_of_getLsbD_eq
  intro i hi
  simp only [BitVec.getLsbD_or, BitVec.getLsbD_and, BitVec.getLsbD_not, hi]
  cases ((1 : Word) <<< pos).getLsbD i <;> simp

theorem replaceField_one_zero (a : Word) (pos : Nat) : replaceField a pos 1 0 = a &&& ~~~((1 : Word) <<< pos) := by
  simp [replaceField_one]

/-- The rotation by a word's width less `n`, as R181 and R183 spell it, is the right rotation by `n`. -/
theorem rotate_complement_eq_rotateRight {w n : Nat} (x : BitVec w) (h : n < w) :
    (x <<< ((w - n) % w)) ||| (x >>> (w - (w - n) % w)) = x.rotateRight n := by
  rw [BitVec.rotateRight_eq_rotateRightAux_of_lt h, BitVec.rotateRightAux]
  rcases Nat.eq_zero_or_pos n with rfl | hn
  · simp [BitVec.ushiftRight_eq_zero]
  · rw [Nat.mod_eq_of_lt (by omega), Nat.sub_sub_self h.le, BitVec.or_comm]

theorem rotateLeft32_complement {n : Nat} (a : Word) (h : n < 32) :
    rotateLeft32 a ((32 - n) % 32) = ((a.extractLsb' 0 32).rotateRight n).setWidth 64 :=
  congrArg (BitVec.setWidth 64) (rotate_complement_eq_rotateRight (lowHalf a) h)

theorem rotateLeft64_complement {n : Nat} (a : Word) (h : n < 64) :
    rotateLeft64 a ((64 - n) % 64) = a.rotateRight n :=
  rotate_complement_eq_rotateRight a h

theorem resultOf_extract {pos len : Nat} (h : pos + len ≤ 64) (a b : Word) :
    resultOf (.extract pos len) a b = some (extractField a pos len) :=
  resultOf_of_checked ((fieldOk_iff pos len).mpr h) rfl

theorem resultOf_replace {pos len : Nat} (h : pos + len ≤ 64) (a b : Word) :
    resultOf (.replace pos len) a b = some (replaceField a pos len b) :=
  resultOf_of_checked ((fieldOk_iff pos len).mpr h) rfl

theorem resultOf_rol32 {len : Nat} (h : len < 32) (a b : Word) :
    resultOf (.rol32 len) a b = some (rotateLeft32 a len) :=
  resultOf_of_checked ((rotateOk_iff 32 len).mpr h) rfl

theorem resultOf_rol64 {len : Nat} (h : len < 64) (a b : Word) :
    resultOf (.rol64 len) a b = some (rotateLeft64 a len) :=
  resultOf_of_checked ((rotateOk_iff 64 len).mpr h) rfl

end Sys2Proof.Machine

open Sys2Proof Sys2Proof.Machine

/-- Settles O50: each expansion is chosen by its condition, and its request computes what the datapath gives for it. -/
theorem pseudoOperationsExpandToOneRequest : Obligations.PseudoOperationsExpandToOneRequest := by
  intro a b
  refine ⟨fun len => ⟨fun h => ⟨Pseudo.expand_of_ok ((countOk_iff len).mpr h), ?zext⟩, fun h => ?_⟩,
    fun pos => ⟨fun h => ⟨Pseudo.expand_of_ok ((bitOk_iff pos).mpr h), ?setbit⟩, fun h => ?_⟩,
    fun pos => ⟨fun h => ⟨Pseudo.expand_of_ok ((bitOk_iff pos).mpr h), ?clrbit⟩, fun h => ?_⟩,
    fun n => ⟨fun h => ⟨Pseudo.expand_of_ok ((rotateOk_iff 32 n).mpr (by omega)), ?ror32⟩, fun h => ?_⟩,
    fun n => ⟨fun h => ⟨Pseudo.expand_of_ok ((rotateOk_iff 64 n).mpr (by omega)), ?ror64⟩, fun h => ?_⟩⟩
  case zext => rw [resultOf_extract (by omega), extractField_zero a h]
  case setbit => rw [resultOf_replace (by omega), replaceField_one_one]
  case clrbit => rw [resultOf_replace (by omega), replaceField_one_zero]
  case ror32 => rw [resultOf_rol32 (Nat.mod_lt _ (by decide)), rotateLeft32_complement a (by omega)]
  case ror64 => rw [resultOf_rol64 (Nat.mod_lt _ (by decide)), rotateLeft64_complement a (by omega)]
  · exact Pseudo.expand_of_not_ok (mt (countOk_iff len).mp (by omega))
  · exact Pseudo.expand_of_not_ok (mt (bitOk_iff pos).mp (by omega))
  · exact Pseudo.expand_of_not_ok (mt (bitOk_iff pos).mp (by omega))
  · exact Pseudo.expand_of_not_ok (mt (rotateOk_iff 32 n).mp (by omega))
  · exact Pseudo.expand_of_not_ok (mt (rotateOk_iff 64 n).mp (by omega))

end

section
/-! The assembler (30_encoding.md R74, R75): what each form of a line accepts, that every row of the assembler's tables
accepts exactly the lines of its mnemonic, and so does the assembler. -/

namespace Sys2Proof.Machine

/-! ### The forms of a line -/

section
variable {args : List AsmArg} {c : Call}

theorem asmCount_eq_some_iff {op : Nat → Instr} : asmCount op args = some c ↔
    ∃ l len, FieldText l len ∧ args = [.number l] ∧ c = ⟨op len, 0, 0⟩ := by
  constructor
  · intro h
    unfold asmCount at h
    split at h
    next l =>
      obtain ⟨len, hl, rfl⟩ := Option.map_eq_some_iff.mp h
      exact ⟨l, len, (readField_eq_some_iff l len).mp hl, rfl, rfl⟩
    next => nomatch h
  · rintro ⟨l, len, hl, rfl, rfl⟩
    rw [asmCount, (readField_eq_some_iff l len).mpr hl, Option.map_some]

theorem asmA_eq_some_iff {op : Instr} : asmA op args = some c ↔ ∃ a, args = [.value a] ∧ c = ⟨op, a, 0⟩ := by
  constructor
  · intro h
    unfold asmA at h
    split at h
    next a => exact ⟨a, rfl, (Option.some.inj h).symm⟩
    next => nomatch h
  · rintro ⟨a, rfl, rfl⟩
    rfl

theorem asmAB_eq_some_iff {op : Instr} : asmAB op args = some c ↔
    ∃ a b, args = [.value a, .value b] ∧ c = ⟨op, a, b⟩ := by
  constructor
  · intro h
    unfold asmAB at h
    split at h
    next a b => exact ⟨a, b, rfl, (Option.some.inj h).symm⟩
    next => nomatch h
  · rintro ⟨a, b, rfl, rfl⟩
    rfl

theorem asmACount_eq_some_iff {op : Nat → Instr} : asmACount op args = some c ↔
    ∃ a t n, FieldText t n ∧ args = [.value a, .number t] ∧ c = ⟨op n, a, 0⟩ := by
  constructor
  · intro h
    unfold asmACount at h
    split at h
    next a t =>
      obtain ⟨n, ht, rfl⟩ := Option.map_eq_some_iff.mp h
      exact ⟨a, t, n, (readField_eq_some_iff t n).mp ht, rfl, rfl⟩
    next => nomatch h
  · rintro ⟨a, t, n, ht, rfl, rfl⟩
    rw [asmACount, (readField_eq_some_iff t n).mpr ht, Option.map_some]

theorem asmAField_eq_some_iff {op : Nat → Nat → Instr} : asmAField op args = some c ↔
    ∃ a p l pos len, FieldText p pos ∧ FieldText l len ∧ args = [.value a, .number p, .number l] ∧
      c = ⟨op pos len, a, 0⟩ := by
  constructor
  · intro h
    unfold asmAField at h
    split at h
    next a p l =>
      obtain ⟨pos, hp, h⟩ := Option.bind_eq_some_iff.mp h
      obtain ⟨len, hl, rfl⟩ := Option.map_eq_some_iff.mp h
      exact ⟨a, p, l, pos, len, (readField_eq_some_iff p pos).mp hp, (readField_eq_some_iff l len).mp hl, rfl, rfl⟩
    next => nomatch h
  · rintro ⟨a, p, l, pos, len, hp, hl, rfl, rfl⟩
    rw [asmAField, (readField_eq_some_iff p pos).mpr hp, Option.bind_some, (readField_eq_some_iff l len).mpr hl,
      Option.map_some]

theorem asmAFieldB_eq_some_iff {op : Nat → Nat → Instr} : asmAFieldB op args = some c ↔
    ∃ a b p l pos len, FieldText p pos ∧ FieldText l len ∧ args = [.value a, .number p, .number l, .value b] ∧
      c = ⟨op pos len, a, b⟩ := by
  constructor
  · intro h
    unfold asmAFieldB at h
    split at h
    next a p l b =>
      obtain ⟨pos, hp, h⟩ := Option.bind_eq_some_iff.mp h
      obtain ⟨len, hl, rfl⟩ := Option.map_eq_some_iff.mp h
      exact ⟨a, b, p, l, pos, len, (readField_eq_some_iff p pos).mp hp, (readField_eq_some_iff l len).mp hl, rfl, rfl⟩
    next => nomatch h
  · rintro ⟨a, b, p, l, pos, len, hp, hl, rfl, rfl⟩
    rw [asmAFieldB, (readField_eq_some_iff p pos).mpr hp, Option.bind_some, (readField_eq_some_iff l len).mpr hl,
      Option.map_some]

/-- A line of a pseudo-operation gives its expansion, or is refused with it. -/
theorem asmPseudo_of_numberText {t : List Char} {n : Nat} (h : NumberText t n) (p : Nat → Pseudo) (a : Word) :
    asmPseudo p [.value a, .number t] = (p n).expand a := by
  rw [asmPseudo, (readNumber_eq_some_iff t n).mpr h, Option.bind_some]

theorem asmPseudo_eq_some_iff {p : Nat → Pseudo} : asmPseudo p args = some c ↔
    ∃ a t n, NumberText t n ∧ (p n).expand a = some c ∧ args = [.value a, .number t] := by
  constructor
  · intro h
    unfold asmPseudo at h
    split at h
    next a t =>
      obtain ⟨n, ht, hc⟩ := Option.bind_eq_some_iff.mp h
      exact ⟨a, t, n, (readNumber_eq_some_iff t n).mp ht, hc, rfl⟩
    next => nomatch h
  · rintro ⟨a, t, n, ht, hc, rfl⟩
    rw [asmPseudo_of_numberText ht, hc]

end

/-! ### The rows of the tables -/

/-- The rows in which the assembler looks a mnemonic up. -/
def asmTable : List (List Char × (List AsmArg → Option Call)) := asmTableLow ++ asmTableHigh ++ asmTablePseudo

/-- Every row accepts exactly the lines of its mnemonic, with their requests (R74, R75). -/
theorem asmTable_sound : ∀ row ∈ asmTable, ∀ args c, row.2 args = some c ↔ SourceLine row.1 args c := by
  simp only [asmTable, asmTableLow, asmTableHigh, asmTablePseudo, List.forall_mem_append, List.forall_mem_cons]
  refine ⟨⟨⟨?mask, ?extract, ?replace, ?test, ?sext, ?npow2, ?clz, ?bitlen, nofun⟩,
    ?rol32, ?rol64, ?revbits, ?bswap32, ?bswap64, ?mulh, ?mulhu, ?mulhsu, nofun⟩,
    ?zext, ?setbit, ?clrbit, ?ror32, ?ror64, nofun⟩
  all_goals intro args c
  case mask =>
    exact asmCount_eq_some_iff.trans
      ⟨by rintro ⟨l, len, h, rfl, rfl⟩; exact .mask h, by rintro ⟨h⟩; exact ⟨_, _, h, rfl, rfl⟩⟩
  case extract =>
    exact asmAField_eq_some_iff.trans
      ⟨by rintro ⟨a, p, l, pos, len, hp, hl, rfl, rfl⟩; exact .extract hp hl,
        by rintro ⟨⟩; exact ⟨_, _, _, _, _, ‹_›, ‹_›, rfl, rfl⟩⟩
  case replace =>
    exact asmAFieldB_eq_some_iff.trans
      ⟨by rintro ⟨a, b, p, l, pos, len, hp, hl, rfl, rfl⟩; exact .replace hp hl,
        by rintro ⟨⟩; exact ⟨_, _, _, _, _, _, ‹_›, ‹_›, rfl, rfl⟩⟩
  case npow2 | clz | bitlen | bswap32 | bswap64 =>
    exact asmA_eq_some_iff.trans ⟨by rintro ⟨a, rfl, rfl⟩; constructor, by rintro ⟨⟩; exact ⟨_, rfl, rfl⟩⟩
  case mulh | mulhu | mulhsu =>
    exact asmAB_eq_some_iff.trans ⟨by rintro ⟨a, b, rfl, rfl⟩; constructor, by rintro ⟨⟩; exact ⟨_, _, rfl, rfl⟩⟩
  case test | sext | rol32 | rol64 | revbits =>
    exact asmACount_eq_some_iff.trans
      ⟨by rintro ⟨a, t, n, h, rfl, rfl⟩; constructor; exact h, by rintro ⟨⟩; exact ⟨_, _, _, ‹_›, rfl, rfl⟩⟩
  case zext | setbit | clrbit | ror32 | ror64 =>
    exact asmPseudo_eq_some_iff.trans
      ⟨by rintro ⟨a, t, n, h, hc, rfl⟩; constructor <;> assumption, by rintro ⟨⟩; exact ⟨_, _, _, ‹_›, ‹_›, rfl⟩⟩

/-- Every line of R74 and R75 has its mnemonic in the tables. -/
theorem SourceLine.exists_row {key : List Char} {args : List AsmArg} {c : Call} (h : SourceLine key args c) :
    ∃ row ∈ asmTable, row.1 = key := by
  have hkey : key ∈ asmTable.map Prod.fst := by cases h <;> decide
  exact List.mem_map.mp hkey

/-! ### The assembler -/

variable {m : List Char} {args : List AsmArg} {c : Call}

/-- The assembler looks the mnemonic up in upper case, and runs its row. -/
theorem assemble_eq (m : List Char) (args : List AsmArg) : assemble m args =
    (asmTable.find? fun row => row.1 == m.map Char.toUpper).bind fun row => row.2 args := by
  rw [← funext upperCase_eq_toUpper]; rfl

/-- The assembler accepts exactly the lines of R74 and R75, with their requests. -/
theorem assemble_eq_some_iff : assemble m args = some c ↔ SourceLine (m.map Char.toUpper) args c := by
  cases hfind : asmTable.find? (fun row => row.1 == m.map Char.toUpper) with
  | some row =>
    have hkey : row.1 = m.map Char.toUpper := by simpa using List.find?_some hfind
    rw [assemble_eq, hfind, Option.bind_some, ← hkey]
    exact asmTable_sound row (List.mem_of_find?_eq_some hfind) args c
  | none =>
    rw [assemble_eq, hfind, Option.bind_none]
    refine ⟨nofun, fun hline => ?_⟩
    obtain ⟨row, hrow, hkey⟩ := hline.exists_row
    simpa [hkey] using List.find?_eq_none.mp hfind row hrow

/-- A line of a pseudo-operation, found in the tables, gives its expansion. -/
theorem assemble_pseudoLine {key t : List Char} {p : Nat → Pseudo} {n : Nat}
    (hfind : (asmTable.find? fun row => row.1 == key) = some (key, asmPseudo p)) (ht : NumberText t n) (a : Word)
    (hm : m.map Char.toUpper = key) : assemble m [.value a, .number t] = (p n).expand a := by
  rw [assemble_eq, hm, hfind, Option.bind_some]
  exact asmPseudo_of_numberText ht p a

/-! ### What an accepted line gives -/

theorem FieldText.fits {t : List Char} {n : Nat} (h : FieldText t n) : fieldFits n = true := decide_eq_true h.2

/-- The number of a pseudo-operation (R75). -/
def Pseudo.number : Pseudo → Nat
  | .zext n | .setbit n | .clrbit n | .ror32 n | .ror64 n => n

/-- A pseudo-operation that expands meets its condition, and stands for its request. -/
theorem Pseudo.expand_eq_some {p : Pseudo} {a : Word} (h : p.expand a = some c) : p.ok = true ∧ p.call a = c :=
  (Option.ite_none_right_eq_some.mp h).imp_right Option.some.inj

/-- Every condition of R75 bounds the number by 64. -/
theorem Pseudo.number_le_of_ok {p : Pseudo} (h : p.ok = true) : p.number ≤ 64 := by
  cases p with
  | zext n => exact (countOk_iff n).mp h
  | setbit n | clrbit n => exact ((bitOk_iff n).mp h).trans (by decide)
  | ror32 n => exact ((rotateOk_iff 32 n).mp h).le.trans (by decide)
  | ror64 n => exact ((rotateOk_iff 64 n).mp h).le

/-- The request of an expansion is well-formed. -/
theorem Pseudo.wf_of_expand {p : Pseudo} {a : Word} (h : p.expand a = some c) : c.op.wf = true := by
  obtain ⟨hok, rfl⟩ := p.expand_eq_some h
  cases p with
  | zext n | setbit n | clrbit n =>
    have hn : n ≤ 64 := Pseudo.number_le_of_ok hok
    simp [Pseudo.call, Instr.wf, fieldFits]; omega
  | ror32 n | ror64 n => simp [Pseudo.call, Instr.wf, fieldFits]; omega

/-- The request of a line is well-formed (R62, R74). -/
theorem SourceLine.wf {key : List Char} (h : SourceLine key args c) : c.op.wf = true := by
  cases h with
  | mask hl | test hl | sext hl | rol32 hl | rol64 hl | revbits hl => exact hl.fits
  | extract hp hl | replace hp hl => exact Bool.and_eq_true_iff.mpr ⟨hp.fits, hl.fits⟩
  | npow2 | clz | bitlen | bswap32 | bswap64 | mulh | mulhu | mulhsu => rfl
  | zext _ hc | setbit _ hc | clrbit _ hc | ror32 _ hc | ror64 _ hc => exact Pseudo.wf_of_expand hc

/-- The text is that of a number in 0 to 127 (R74). -/
def InRange (text : List Char) : Prop := ∃ n ≤ 127, NumberText text n

theorem FieldText.inRange {t : List Char} {n : Nat} (h : FieldText t n) : InRange t := ⟨n, h.2, h.1⟩

theorem Pseudo.inRange_of_expand {p : Pseudo} {a : Word} {t : List Char} (h : p.expand a = some c)
    (ht : NumberText t p.number) : InRange t :=
  ⟨p.number, (p.number_le_of_ok (p.expand_eq_some h).1).trans (by decide), ht⟩

/-- Every number on a line of R74 or R75 is in range. -/
theorem SourceLine.inRange {key text : List Char} (h : SourceLine key args c) (hmem : AsmArg.number text ∈ args) :
    InRange text := by
  cases h <;> simp only [List.mem_cons, List.not_mem_nil, or_false, false_or, reduceCtorEq, AsmArg.number.injEq] at hmem
  case mask hl | test hl | sext hl | rol32 hl | rol64 hl | revbits hl => exact hmem ▸ hl.inRange
  case extract hp hl | replace hp hl =>
    rcases hmem with rfl | rfl
    · exact hp.inRange
    · exact hl.inRange
  case zext ht hc | setbit ht hc | clrbit ht hc | ror32 ht hc | ror64 ht hc =>
    exact hmem ▸ Pseudo.inRange_of_expand hc ht

end Sys2Proof.Machine

open Sys2Proof Sys2Proof.Machine

/-- Settles O51: the tables' rows accept exactly the lines of R74 and R75, whose requests are well-formed. -/
theorem assemblerAcceptsExactlyTheLinesOfItsSyntax : Obligations.AssemblerAcceptsExactlyTheLinesOfItsSyntax := by
  refine fun m args c => ⟨assemble_eq_some_iff, fun h => ?_⟩
  have hwf : c.op.wf = true := (assemble_eq_some_iff.mp h).wf
  exact ⟨hwf, decode_encode hwf⟩

/-- Settles O52: an accepted line is one of R74 or R75, and every number on it is in range. -/
theorem assemblerRefusesEveryNumberOutOfRange : Obligations.AssemblerRefusesEveryNumberOutOfRange := by
  intro m args text hmem hout
  refine Option.eq_none_iff_forall_ne_some.mpr fun c hc => ?_
  obtain ⟨n, hn, htext⟩ := (assemble_eq_some_iff.mp hc).inRange hmem
  exact hout n hn htext

/-- Settles O53: the mnemonic finds the row of its pseudo-operation, which gives the expansion. -/
theorem pseudoLinesGiveTheirExpansion : Obligations.PseudoLinesGiveTheirExpansion :=
  fun _ a _ _ ht => ⟨assemble_pseudoLine rfl ht a, assemble_pseudoLine rfl ht a, assemble_pseudoLine rfl ht a,
    assemble_pseudoLine rfl ht a, assemble_pseudoLine rfl ht a⟩

end

section
/-! The bit fields (41_bitfield.md): what the datapath of MASK, EXTRACT, REPLACE and TEST gives bit by bit, the laws of
R106, and when each operation answers and when it responds DOMAIN. -/

namespace Sys2Proof.Machine

variable {pos len : Nat}

/-- Outside its domain an operation responds 0, DOMAIN (R73, R303). -/
theorem respondIf_of_not_inDomain {ok : Bool} (h : ¬ ok = true) (r : Word) (s : State) :
    respondIf ok r s = .next { s with front := some ⟨0, 0b10⟩ } :=
  respondIf_of_outside (Bool.eq_false_iff.mpr h) r s

/-- The domain fails as soon as one of the three conditions of `field_ok` does (R100). -/
theorem not_fieldOk (h : 64 < len ∨ 64 < pos ∨ 64 < pos + len) : ¬ fieldOk pos len = true :=
  mt (fieldOk_iff pos len).mp (by omega)

/-! ### MASK -/

/-- The mask is one less than the power of two above it, modulo 2^64. -/
theorem ones_add_one (n : Nat) : ones n + 1 = (1 : Word) <<< n := by
  apply BitVec.eq_of_toNat_eq
  have hpos : 1 ≤ 2 ^ n := Nat.one_le_two_pow
  simp [ones, Nat.shiftLeft_eq, Nat.sub_add_cancel hpos]

theorem ones_eq_shiftLeft_sub_one (n : Nat) : ones n = ((1 : Word) <<< n) - 1 :=
  eq_sub_of_add_eq (ones_add_one n)

/-! ### EXTRACT and TEST -/

/-- Bit `i` of a field that is read (R103). -/
theorem getLsbD_extractField (h : len ≤ 64) (a : Word) (pos i : Nat) :
    (extractField a pos len).getLsbD i = (decide (i < len) && a.getLsbD (pos + i)) := by
  simp [extractField, getLsbD_ones h, Bool.and_comm]

/-- EXTRACT zero-extends A[pos+len-1:pos] (R103). -/
theorem extractField_eq_setWidth (h : len ≤ 64) (a : Word) (pos : Nat) :
    extractField a pos len = (a.extractLsb' pos len).setWidth 64 := by
  apply BitVec.eq_of_getLsbD_eq
  intro i hi
  rw [getLsbD_extractField h]
  simp [hi]

theorem testBit_eq_ite (a : Word) (pos : Nat) : testBit a pos = if a.getLsbD pos then 1 else 0 := by
  unfold testBit
  cases a.getLsbD pos <;> rfl

/-- Reading a field of one bit tests that bit (R107). -/
theorem extractField_one (a : Word) (pos : Nat) : extractField a pos 1 = testBit a pos := by
  apply BitVec.eq_of_getLsbD_eq
  intro i hi
  rw [getLsbD_extractField (by decide), testBit, BitVec.getLsbD_setWidth, BitVec.getLsbD_ofBool]
  rcases Nat.eq_zero_or_pos i with rfl | hpos
  · simp
  · simp [Nat.ne_of_gt hpos]

/-! ### REPLACE and the laws of R106 -/

/-- The mask of a field has the bits of the field. -/
theorem getLsbD_fieldMask (h : pos + len ≤ 64) (i : Nat) :
    (ones len <<< pos).getLsbD i = decide (pos ≤ i ∧ i < pos + len) := by
  rw [BitVec.getLsbD_shiftLeft, getLsbD_ones (by omega), Bool.eq_iff_iff]
  simp
  omega

/-- Bit `i` of the word with the field replaced: B's inside the field, A's outside it (R105). -/
theorem getLsbD_replaceField (h : pos + len ≤ 64) (a b : Word) {i : Nat} (hi : i < 64) :
    (replaceField a pos len b).getLsbD i =
      if pos ≤ i ∧ i < pos + len then b.getLsbD (i - pos) else a.getLsbD i := by
  rw [replaceField, BitVec.shiftLeft_and_distrib]
  simp only [BitVec.getLsbD_or, BitVec.getLsbD_and, BitVec.getLsbD_not, getLsbD_fieldMask h,
    BitVec.getLsbD_shiftLeft, hi]
  split
  next hin => simp [hin, Nat.not_lt.mpr hin.1]
  next hout => simp [hout]

/-- What was put into a field is read back from it (R106). -/
theorem extractField_replaceField (h : pos + len ≤ 64) (a b : Word) :
    extractField (replaceField a pos len b) pos len = b &&& ones len := by
  have hlen : len ≤ 64 := by omega
  apply BitVec.eq_of_getLsbD_eq
  intro i hi
  rw [getLsbD_extractField hlen, BitVec.getLsbD_and, getLsbD_ones hlen, Bool.and_comm]
  by_cases hin : i < len
  · rw [getLsbD_replaceField h a b (by omega), if_pos (by omega), Nat.add_sub_cancel_left]
  · simp [hin]

/-- The bits outside the field are preserved (R105, R106). -/
theorem replaceField_and_not_fieldMask (h : pos + len ≤ 64) (a b : Word) :
    replaceField a pos len b &&& ~~~(ones len <<< pos) = a &&& ~~~(ones len <<< pos) := by
  apply BitVec.eq_of_getLsbD_eq
  intro i hi
  rw [BitVec.getLsbD_and, BitVec.getLsbD_and, BitVec.getLsbD_not, getLsbD_fieldMask h, getLsbD_replaceField h a b hi]
  split
  next hin => simp [hin]
  next => rfl

/-- Putting back into a field what was read from it changes nothing. -/
theorem replaceField_extractField (h : pos + len ≤ 64) (a : Word) :
    replaceField a pos len (extractField a pos len) = a := by
  apply BitVec.eq_of_getLsbD_eq
  intro i hi
  rw [getLsbD_replaceField h _ _ hi, getLsbD_extractField (by omega)]
  split
  next hin =>
    have hlt : i - pos < len := by omega
    rw [Nat.add_sub_cancel' hin.1, decide_eq_true hlt, Bool.true_and]
  next => rfl

end Sys2Proof.Machine

open Sys2Proof Sys2Proof.Machine

/-- Settles O23: inside the domain MASK answers `ones len`, whose bits are those below `len`. -/
theorem maskAnswersTheLowOnes : Obligations.MaskAnswersTheLowOnes := by
  refine ⟨fun _ _ => decode_encodeFields (by decide), fun s len h => ?_, fun s len h => ?_⟩
  · exact ⟨ones len, respondIf_of_inDomain ((countOk_iff len).mpr h) _ s, fun i _ => getLsbD_ones h i,
      fun _ => ones_eq_shiftLeft_sub_one len, by rintro rfl; rfl⟩
  · exact respondIf_of_not_inDomain (mt (countOk_iff len).mp (by omega)) _ s

/-- Settles O24: inside the domain EXTRACT answers `extractField`, read bit by bit. -/
theorem extractAnswersTheField : Obligations.ExtractAnswersTheField := by
  refine ⟨fun _ _ => decode_encodeFields (by decide), fun s pos len h => ?_,
    fun s pos len h => respondIf_of_not_inDomain (not_fieldOk h) _ s⟩
  have hlen : len ≤ 64 := by omega
  exact ⟨_, respondIf_of_inDomain ((fieldOk_iff pos len).mpr h) _ s, fun i _ => getLsbD_extractField hlen _ pos i,
    fun _ => extractField_eq_setWidth hlen _ pos⟩

/-- Settles O25: inside the domain REPLACE answers `replaceField`, read bit by bit. -/
theorem replaceAnswersTheWordWithTheFieldReplaced : Obligations.ReplaceAnswersTheWordWithTheFieldReplaced := by
  refine ⟨fun _ _ => decode_encodeFields (by decide), fun s pos len h => ?_,
    fun s pos len h => respondIf_of_not_inDomain (not_fieldOk h) _ s⟩
  exact ⟨_, respondIf_of_inDomain ((fieldOk_iff pos len).mpr h) _ s, fun _ => getLsbD_replaceField h _ _⟩

/-- Settles O26: TEST answers the bit, which is the field of one bit there. -/
theorem testAnswersTheBit : Obligations.TestAnswersTheBit := by
  refine ⟨fun _ _ => decode_encodeFields (by decide), fun s pos h => ?_, fun s pos h => ?_⟩
  · exact ⟨_, respondIf_of_inDomain ((bitOk_iff pos).mpr h) _ s, testBit_eq_ite _ pos,
      by rw [resultOf_extract (by omega), extractField_one]⟩
  · exact respondIf_of_not_inDomain (mt (bitOk_iff pos).mp (by omega)) _ s

/-- Settles O27: both operations are inside their domain, and the laws are those of the datapath. -/
theorem extractAfterReplaceGivesTheReplacement : Obligations.ExtractAfterReplaceGivesTheReplacement :=
  fun a b b' _ _ h => ⟨_, resultOf_replace h a b, by rw [resultOf_extract h _ b', extractField_replaceField h],
    replaceField_and_not_fieldMask h a b⟩

/-- Settles O28: both operations are inside their domain, and the field read is put back where it was. -/
theorem replacingAFieldByItselfChangesNothing : Obligations.ReplacingAFieldByItselfChangesNothing :=
  fun a b _ _ h => ⟨_, resultOf_extract h a b, by rw [resultOf_replace h, replaceField_extractField h]⟩

end

section
/-! Sign extension and normalization (42_signext_normalize.md): the bits of SEXT, the bit length and the leading-zero
count of a word by its highest set bit, and NPOW2 as a shift by the rounded-up logarithm (R144, R149). -/

namespace Sys2Proof.Machine

variable {a : Word} {len k : Nat}

/-! ### SEXT -/

/-- A bit that a left shift does not shift in is a bit of the word. -/
theorem getLsbD_shiftLeft_of_le {n i : Nat} (hle : n ≤ i) (hi : i < 64) (a : Word) :
    (a <<< n).getLsbD i = a.getLsbD (i - n) := by
  rw [BitVec.getLsbD_shiftLeft, decide_eq_true hi, decide_eq_false (Nat.not_lt.mpr hle), Bool.not_false,
    Bool.true_and, Bool.true_and]

/-- The two shifts keep the bits below `len` and fill the others with bit `len - 1` (R141, R142). -/
theorem getLsbD_signExtendLow (hpos : 1 ≤ len) (hlen : len ≤ 64) (a : Word) {i : Nat} (hi : i < 64) :
    (signExtendLow a len).getLsbD i = a.getLsbD (min i (len - 1)) := by
  rw [signExtendLow, BitVec.getLsbD_sshiftRight, BitVec.msb_eq_getLsbD_last, decide_eq_false (Nat.not_le.mpr hi),
    Bool.not_false, Bool.true_and]
  split
  next hin =>
    rw [getLsbD_shiftLeft_of_le (by omega) hin]
    congr 1; omega
  next hout =>
    rw [getLsbD_shiftLeft_of_le (by omega) (by decide)]
    congr 1; omega

/-- SEXT sign-extends A[len-1:0] (R142). -/
theorem signExtendLow_eq_signExtend (hpos : 1 ≤ len) (hlen : len ≤ 64) (a : Word) :
    signExtendLow a len = (a.extractLsb' 0 len).signExtend 64 := by
  apply BitVec.eq_of_getLsbD_eq
  intro i hi
  rw [getLsbD_signExtendLow hpos hlen a hi, BitVec.getLsbD_signExtend, BitVec.msb_eq_getLsbD_last]
  by_cases hin : i < len
  · have hmin : min i (len - 1) = i := by omega
    simp [hin, hi, hmin]
  · have hmin : min i (len - 1) = len - 1 := by omega
    have hlast : len - 1 < len := by omega
    simp [hin, hi, hmin, hlast]

/-! ### BITLEN, CLZ and the logarithm -/

/-- The highest set bit is the logarithm, rounded down. -/
theorem HighestSet.log2_eq (h : HighestSet a k) : Nat.log2 a.toNat = k := by
  have hge : 2 ^ k ≤ a.toNat := Nat.ge_two_pow_of_testBit h.1
  have hlt : a.toNat < 2 ^ (k + 1) := Nat.lt_pow_two_of_testBit _ h.2
  have hne : a.toNat ≠ 0 := (Nat.two_pow_pos k).trans_le hge |>.ne'
  exact (Nat.log2_eq_iff hne).mpr ⟨hge, hlt⟩

theorem highestSet_log2 (h : a ≠ 0) : HighestSet a (Nat.log2 a.toNat) := by
  obtain ⟨k, hk⟩ := exists_highestSet h
  rwa [hk.log2_eq]

theorem two_pow_log2_le (h : a ≠ 0) : 2 ^ Nat.log2 a.toNat ≤ a.toNat :=
  Nat.log2_self_le (BitVec.toNat_pos_of_ne_zero h).ne'

theorem bitLength_zero : bitLength 0 = 0 := by decide

theorem leadingZeros_zero : leadingZeros 0 = 64 := by decide

/-- The smear has one set bit more than the index of the highest one (R148). -/
theorem bitLength_of_highestSet (h : HighestSet a k) : (bitLength a).toNat = k + 1 := by
  have hk := h.lt
  rw [bitLength, smear_of_highestSet h, popcount_ones hk, BitVec.toNat_ofNat, Nat.mod_eq_of_lt (by omega)]

/-- The complement of the smear has the bits above the highest set one (R146). -/
theorem leadingZeros_of_highestSet (h : HighestSet a k) : (leadingZeros a).toNat = 63 - k := by
  have hk := h.lt
  rw [leadingZeros, smear_of_highestSet h, popcount_not_ones hk, BitVec.toNat_ofNat, Nat.mod_eq_of_lt (by omega)]
  omega

theorem bitLength_add_leadingZeros (a : Word) : (bitLength a).toNat + (leadingZeros a).toNat = 64 := by
  by_cases h : a = 0
  · rw [h, bitLength_zero, leadingZeros_zero]; rfl
  · have hk := highestSet_log2 h
    have hlt := hk.lt
    rw [bitLength_of_highestSet hk, leadingZeros_of_highestSet hk]
    omega

/-! ### NPOW2 -/

theorem nextPow2_zero : nextPow2 0 = 0 := by decide

theorem toNat_one_shiftLeft (h : k < 64) : ((1 : Word) <<< k).toNat = 2 ^ k := BitVec.toNat_twoPow_of_lt h

/-- The detector of R143 finds the powers of two. -/
theorem and_sub_one_eq_zero_iff (h : a ≠ 0) : a &&& (a - 1) = 0 ↔ ∃ k, a.toNat = 2 ^ k := by
  have hpos : 1 ≤ a.toNat := BitVec.toNat_pos_of_ne_zero h
  have hsub : (a - 1).toNat = a.toNat - 1 := BitVec.toNat_sub_of_le hpos
  rw [← BitVec.toNat_inj, BitVec.toNat_and, hsub]
  exact Nat.and_sub_one_eq_zero_iff_isPowerOfTwo (Nat.ne_of_gt hpos)

/-- A power of two passes through (R143). -/
theorem nextPow2_of_toNat_eq_two_pow (h : a.toNat = 2 ^ k) : nextPow2 a = a := by
  have hne : a ≠ 0 := by rintro rfl; exact (Nat.two_pow_pos k).ne h
  exact if_pos ((and_sub_one_eq_zero_iff hne).mpr ⟨k, h⟩)

/-- Any other word is rounded up to the power of two above its highest set bit, modulo 2^64 (R143, R144). -/
theorem nextPow2_of_highestSet (h : HighestSet a k) (hpow : ∀ j, a.toNat ≠ 2 ^ j) :
    nextPow2 a = (1 : Word) <<< (k + 1) := by
  have hne : a ≠ 0 := by rintro rfl; simp [HighestSet] at h
  have hdetect : ¬ a &&& (a - 1) = 0 := mt (and_sub_one_eq_zero_iff hne).mp (not_exists.mpr hpow)
  rw [nextPow2, if_neg hdetect, smear_of_highestSet h, ones_add_one]

/-- NPOW2 shifts 1 by the logarithm, rounded up (R144). -/
theorem nextPow2_eq_shiftLeft_clog (h : a ≠ 0) : nextPow2 a = (1 : Word) <<< Nat.clog 2 a.toNat := by
  by_cases hpow : ∃ k, a.toNat = 2 ^ k
  · obtain ⟨k, hk⟩ := hpow
    rw [nextPow2_of_toNat_eq_two_pow hk, hk, Nat.clog_pow 2 k (by decide)]
    have hlt : k < 64 := (Nat.pow_lt_pow_iff_right (by decide)).mp (hk ▸ a.isLt)
    exact BitVec.eq_of_toNat_eq (hk.trans (toNat_one_shiftLeft hlt).symm)
  · have hne : ∀ k, a.toNat ≠ 2 ^ k := not_exists.mp hpow
    have hlt : 2 ^ Nat.log2 a.toNat < a.toNat := (two_pow_log2_le h).lt_of_ne (hne _).symm
    have hclog : Nat.clog 2 a.toNat = Nat.log2 a.toNat + 1 :=
      le_antisymm (Nat.clog_le_of_le_pow Nat.lt_log2_self.le) ((Nat.lt_clog_iff_pow_lt (by decide)).mpr hlt)
    rw [nextPow2_of_highestSet (highestSet_log2 h) hne, hclog]

end Sys2Proof.Machine

open Sys2Proof Sys2Proof.Machine

/-- Settles O29: inside the domain SEXT answers `signExtendLow`, which sign-extends the field. -/
theorem sextAnswersTheSignedField : Obligations.SextAnswersTheSignedField := by
  refine ⟨fun _ _ => decode_encodeFields (by decide), fun s len hpos hlen => ?_, fun s len h => ?_⟩
  · have hresult := signExtendLow_eq_signExtend hpos hlen s.pins.a
    exact ⟨_, respondIf_of_inDomain ((signWidthOk_iff len).mpr ⟨hpos, hlen⟩) _ s, hresult,
      by rw [hresult, BitVec.toInt_signExtend_of_le hlen], fun _ => getLsbD_signExtendLow hpos hlen _⟩
  · exact respondIf_of_not_inDomain (mt (signWidthOk_iff len).mp (by omega)) _ s

/-- Settles O30: NPOW2 shifts 1 by the rounded-up logarithm, which is at most 63 up to 2^63 and 64 above. -/
theorem npow2AnswersTheNextPowerOfTwo : Obligations.Npow2AnswersTheNextPowerOfTwo := by
  refine ⟨fun _ _ => decode_encodeFields (by decide), fun s =>
    ⟨_, respond_eq _ _ s, ?zero, fun hpos hle => ?rounded, fun hlt => ?wrapped, fun hne hpow => ?shifted⟩⟩
  case zero => exact fun h => by rw [h, nextPow2_zero]
  case rounded =>
    have hne : s.pins.a ≠ 0 := by intro h; simp [h] at hpos
    have hclog : Nat.clog 2 s.pins.a.toNat ≤ 63 := Nat.clog_le_of_le_pow hle
    exact ⟨_, hclog, by rw [nextPow2_eq_shiftLeft_clog hne, toNat_one_shiftLeft (by omega)],
      Nat.le_pow_clog (by decide) _, fun j => Nat.clog_le_of_le_pow⟩
  case wrapped =>
    have hne : s.pins.a ≠ 0 := by intro h; simp [h] at hlt
    have hclog : 63 < Nat.clog 2 s.pins.a.toNat := (Nat.lt_clog_iff_pow_lt (by decide)).mpr hlt
    rw [nextPow2_eq_shiftLeft_clog hne]
    exact BitVec.shiftLeft_eq_zero hclog
  case shifted =>
    have hk := highestSet_log2 hne
    exact ⟨bitLength s.pins.a, rfl, by rw [nextPow2_of_highestSet hk hpow, bitLength_of_highestSet hk]⟩

/-- Settles O31: CLZ answers `leadingZeros`, which the highest set bit decides. -/
theorem clzAnswersTheLeadingZeroCount : Obligations.ClzAnswersTheLeadingZeroCount :=
  ⟨fun _ _ => decode_encodeFields (by decide), fun s => ⟨leadingZeros s.pins.a, respond_eq _ _ s,
    fun h => by rw [h, leadingZeros_zero], fun _ _ hset habove => leadingZeros_of_highestSet ⟨hset, habove⟩⟩⟩

/-- Settles O32: BITLEN answers `bitLength`, which the highest set bit decides. -/
theorem bitlenAnswersTheBitLength : Obligations.BitlenAnswersTheBitLength :=
  ⟨fun _ _ => decode_encodeFields (by decide), fun s => ⟨bitLength s.pins.a, respond_eq _ _ s,
    fun h => by rw [h, bitLength_zero], fun _ _ hset habove => bitLength_of_highestSet ⟨hset, habove⟩⟩⟩

/-- Settles O33: for A not 0 both counts are given by the highest set bit, which is the logarithm. -/
theorem bitlenAndClzSumTo64 : Obligations.BitlenAndClzSumTo64 := by
  refine fun a b => ⟨bitLength a, leadingZeros a, rfl, rfl, bitLength_add_leadingZeros a, fun h => ?_⟩
  have hk := highestSet_log2 h
  have hlt := hk.lt
  rw [bitLength_of_highestSet hk, leadingZeros_of_highestSet hk]
  exact ⟨rfl, by omega, Nat.lt_log2_self, two_pow_log2_le h⟩

end

section
/-! Rotates, bit reverse and byte-swaps (43_rotate_permute.md): each datapath function bit by bit, the rotates as the
library's rotations, the composition laws of R182 and R184, and the round trips of R186, R188 and R190. -/

namespace Sys2Proof.Machine

variable {len m n i : Nat}

/-! ### Rotations of any width -/

/-- Bit `i` of a left rotation, its index in one formula (R182, R184). -/
theorem getLsbD_rotateLeft_mod {w : Nat} (x : BitVec w) (hn : n < w) (hi : i < w) :
    (x.rotateLeft n).getLsbD i = x.getLsbD ((i + w - n) % w) := by
  rw [BitVec.getLsbD_rotateLeft_of_le hn]
  by_cases hlt : i < n
  · have hindex : w - n + i = i + w - n := by omega
    rw [decide_eq_true hlt, cond_true, Nat.mod_eq_of_lt (by omega), hindex]
  · have hindex : i + w - n = i - n + w := by omega
    rw [decide_eq_false hlt, cond_false, decide_eq_true hi, Bool.true_and, hindex, Nat.add_mod_right,
      Nat.mod_eq_of_lt (by omega)]

/-- Going back by `n` and then by `m` modulo `w` is going back by their sum modulo `w`. -/
theorem rotate_index_add {w : Nat} (hm : m < w) (hn : n < w) (i : Nat) :
    ((i + w - n) % w + w - m) % w = (i + w - (m + n) % w) % w := by
  rw [Nat.add_sub_assoc hm.le, Nat.mod_add_mod]
  by_cases hlt : m + n < w
  · have hsum : i + w - n + (w - m) = i + w - (m + n) + w := by omega
    rw [Nat.mod_eq_of_lt hlt, hsum, Nat.add_mod_right]
  · have hsum : i + w - n + (w - m) = i + w - (m + n - w) := by omega
    rw [Nat.mod_eq_sub_mod (Nat.le_of_not_lt hlt), Nat.mod_eq_of_lt (show m + n - w < w by omega), hsum]

/-- Left rotations add their amounts modulo the width. -/
theorem rotateLeft_rotateLeft {w : Nat} (x : BitVec w) (hm : m < w) (hn : n < w) :
    (x.rotateLeft m).rotateLeft n = x.rotateLeft ((m + n) % w) := by
  have hmod (k : Nat) : k % w < w := Nat.mod_lt k (by omega)
  apply BitVec.eq_of_getLsbD_eq
  intro i hi
  rw [getLsbD_rotateLeft_mod _ hn hi, getLsbD_rotateLeft_mod _ hm (hmod _), getLsbD_rotateLeft_mod _ (hmod _) hi,
    rotate_index_add hm hn]

/-! ### ROL32 and ROL64 -/

/-- Inside the domain ROL32 rotates the low half (R181). -/
theorem rotateLeft32_eq (h : len < 32) (a : Word) : rotateLeft32 a len = ((lowHalf a).rotateLeft len).setWidth 64 := by
  rw [BitVec.rotateLeft_eq_rotateLeftAux_of_lt h, BitVec.rotateLeftAux, rotateLeft32]

/-- Inside the domain ROL64 rotates the word (R183). -/
theorem rotateLeft64_eq (h : len < 64) (a : Word) : rotateLeft64 a len = a.rotateLeft len :=
  (BitVec.rotateLeft_eq_rotateLeftAux_of_lt h).symm

theorem lowHalf_setWidth (x : Half) : lowHalf (x.setWidth 64) = x := by
  apply BitVec.eq_of_getLsbD_eq
  intro i hi
  have hi' : i < 64 := by omega
  rw [getLsbD_lowHalf, BitVec.getLsbD_setWidth, decide_eq_true hi, decide_eq_true hi', Bool.true_and, Bool.true_and]

theorem lowHalf_rotateLeft32 (h : len < 32) (a : Word) :
    lowHalf (rotateLeft32 a len) = (lowHalf a).rotateLeft len := by
  rw [rotateLeft32_eq h, lowHalf_setWidth]

/-- Bit `i` of ROL32's result, below 32 (R181, R182). -/
theorem getLsbD_rotateLeft32 (h : len < 32) (a : Word) (hi : i < 32) :
    (rotateLeft32 a len).getLsbD i = a.getLsbD ((i + 32 - len) % 32) := by
  have hmod : (i + 32 - len) % 32 < 32 := Nat.mod_lt _ (by decide)
  have hi' : i < 64 := by omega
  rw [rotateLeft32_eq h, BitVec.getLsbD_setWidth, decide_eq_true hi', Bool.true_and, getLsbD_rotateLeft_mod _ h hi,
    getLsbD_lowHalf, decide_eq_true hmod, Bool.true_and]

/-- ROL32's result is zero-extended (R181). -/
theorem getLsbD_rotateLeft32_of_ge (a : Word) (len : Nat) (hi : 32 ≤ i) : (rotateLeft32 a len).getLsbD i = false := by
  rw [rotateLeft32, BitVec.getLsbD_setWidth, BitVec.getLsbD_of_ge _ i hi, Bool.and_false]

/-- Bit `i` of ROL64's result (R183, R184). -/
theorem getLsbD_rotateLeft64 (h : len < 64) (a : Word) (hi : i < 64) :
    (rotateLeft64 a len).getLsbD i = a.getLsbD ((i + 64 - len) % 64) := by
  rw [rotateLeft64_eq h, getLsbD_rotateLeft_mod a h hi]

/-- ROL32 composes in the low half (R182). -/
theorem lowHalf_rotateLeft32_rotateLeft32 (hm : m < 32) (hn : n < 32) (a : Word) :
    lowHalf (rotateLeft32 (rotateLeft32 a m) n) = lowHalf (rotateLeft32 a ((m + n) % 32)) := by
  rw [lowHalf_rotateLeft32 hn, lowHalf_rotateLeft32 hm, lowHalf_rotateLeft32 (Nat.mod_lt _ (by decide)),
    rotateLeft_rotateLeft _ hm hn]

/-- ROL64 composes (R184). -/
theorem rotateLeft64_rotateLeft64 (hm : m < 64) (hn : n < 64) (a : Word) :
    rotateLeft64 (rotateLeft64 a m) n = rotateLeft64 a ((m + n) % 64) := by
  rw [rotateLeft64_eq hm, rotateLeft64_eq hn, rotateLeft64_eq (Nat.mod_lt _ (by decide)), rotateLeft_rotateLeft _ hm hn]

/-! ### REVBITS -/

/-- The finished loop puts bit `len - 1 - i` of A at bit `i` and leaves 0 from `len` up (R185). -/
theorem getLsbD_reverseLow (h : len ≤ 64) (a : Word) (i : Nat) :
    (reverseLow a len).getLsbD i = (decide (i < len) && a.getLsbD (len - 1 - i)) := by
  have hiff : i < len ∧ len - 1 - i < len ↔ i < len := by omega
  rw [reverseLow, getLsbD_reverseLoop a h i le_rfl, decide_eq_decide.mpr hiff]

/-- Reversing the low bits twice restores them (R186). -/
theorem reverseLow_reverseLow (h : len ≤ 64) (a : Word) : reverseLow (reverseLow a len) len = a &&& ones len := by
  apply BitVec.eq_of_getLsbD_eq
  intro i _
  rw [getLsbD_reverseLow h, getLsbD_reverseLow h, BitVec.getLsbD_and, getLsbD_ones h, Bool.and_comm (a.getLsbD i)]
  by_cases hi : i < len
  · have hback : len - 1 - (len - 1 - i) = i := by omega
    have hlt : len - 1 - i < len := by omega
    rw [hback, decide_eq_true hlt, Bool.true_and]
  · rw [decide_eq_false hi, Bool.false_and, Bool.false_and]

theorem resultOf_revbits (h : len ≤ 64) (a b : Word) : resultOf (.revbits len) a b = some (reverseLow a len) :=
  resultOf_of_checked ((countOk_iff len).mpr h) rfl

/-! ### BSWAP32 and BSWAP64 -/

/-- Byte `k` of A is byte 3 - k of BSWAP32's result (R187). -/
theorem byteOf_byteSwap32 (a : Word) {k : Nat} (h : k ≤ 3) : byteOf (byteSwap32 a) (3 - k) = byteOf a k := by
  apply BitVec.eq_of_getLsbD_eq
  intro i hi
  have hlow : 8 * (3 - k) + i < 32 := by omega
  have hindex : 8 * (3 - (8 * (3 - k) + i) / 8) + (8 * (3 - k) + i) % 8 = 8 * k + i := by omega
  rw [getLsbD_byteOf, getLsbD_byteOf, getLsbD_byteSwap32, decide_eq_true hlow, Bool.true_and, hindex]

/-- Byte `k` of A is byte 7 - k of BSWAP64's result (R189). -/
theorem byteOf_byteSwap64 (a : Word) {k : Nat} (h : k ≤ 7) : byteOf (byteSwap64 a) (7 - k) = byteOf a k := by
  apply BitVec.eq_of_getLsbD_eq
  intro i hi
  have hlt : 8 * (7 - k) + i < 64 := by omega
  have hindex : 8 * (7 - (8 * (7 - k) + i) / 8) + (8 * (7 - k) + i) % 8 = 8 * k + i := by omega
  rw [getLsbD_byteOf, getLsbD_byteOf, getLsbD_byteSwap64 a hlt, hindex]

/-- BSWAP32's result is zero-extended (R187). -/
theorem highHalf_byteSwap32 (a : Word) : (byteSwap32 a).extractLsb' 32 32 = 0 := by
  apply BitVec.eq_of_getLsbD_eq
  intro i hi
  have hhigh : ¬ 32 + i < 32 := by omega
  rw [BitVec.getLsbD_extractLsb', getLsbD_byteSwap32, decide_eq_false hhigh, Bool.false_and, Bool.and_false]
  exact BitVec.getLsbD_zero.symm

/-- BSWAP32 twice zero-extends the low half (R188). -/
theorem byteSwap32_byteSwap32 (a : Word) : byteSwap32 (byteSwap32 a) = (lowHalf a).setWidth 64 := by
  apply BitVec.eq_of_getLsbD_eq
  intro i hi
  rw [getLsbD_byteSwap32, getLsbD_byteSwap32, BitVec.getLsbD_setWidth, decide_eq_true hi, Bool.true_and,
    getLsbD_lowHalf]
  by_cases hlow : i < 32
  · have hmoved : 8 * (3 - i / 8) + i % 8 < 32 := by omega
    have hback : 8 * (3 - (8 * (3 - i / 8) + i % 8) / 8) + (8 * (3 - i / 8) + i % 8) % 8 = i := by omega
    rw [hback, decide_eq_true hmoved, Bool.true_and]
  · rw [decide_eq_false hlow, Bool.false_and, Bool.false_and]

/-- BSWAP64 is its own inverse (R190). -/
theorem byteSwap64_byteSwap64 (a : Word) : byteSwap64 (byteSwap64 a) = a := by
  apply BitVec.eq_of_getLsbD_eq
  intro i hi
  have hmoved : 8 * (7 - i / 8) + i % 8 < 64 := by omega
  have hback : 8 * (7 - (8 * (7 - i / 8) + i % 8) / 8) + (8 * (7 - i / 8) + i % 8) % 8 = i := by omega
  rw [getLsbD_byteSwap64 _ hi, getLsbD_byteSwap64 a hmoved, hback]

/-- BSWAP64 swaps the halves and the bytes in each half (R190). -/
theorem byteSwap64_eq_append (a : Word) :
    byteSwap64 a = lowHalf (byteSwap32 a) ++ lowHalf (byteSwap32 (a >>> 32)) := by
  apply BitVec.eq_of_getLsbD_eq
  intro i hi
  rw [getLsbD_byteSwap64 a hi, BitVec.getLsbD_append, getLsbD_lowHalf, getLsbD_lowHalf, getLsbD_byteSwap32,
    getLsbD_byteSwap32]
  by_cases hlow : i < 32
  · have hindex : 32 + (8 * (3 - i / 8) + i % 8) = 8 * (7 - i / 8) + i % 8 := by omega
    rw [if_pos hlow, decide_eq_true hlow, Bool.true_and, Bool.true_and, BitVec.getLsbD_ushiftRight, hindex]
  · have hhigh : i - 32 < 32 := by omega
    have hindex : 8 * (3 - (i - 32) / 8) + (i - 32) % 8 = 8 * (7 - i / 8) + i % 8 := by omega
    rw [if_neg hlow, decide_eq_true hhigh, Bool.true_and, Bool.true_and, hindex]

end Sys2Proof.Machine

open Sys2Proof Sys2Proof.Machine

/-- Settles O34: inside the domain ROL32 answers `rotateLeft32`, read bit by bit. -/
theorem rol32RotatesTheLowHalf : Obligations.Rol32RotatesTheLowHalf := by
  refine ⟨fun _ _ => decode_encodeFields (by decide), fun s len h => ?_, fun s len h => ?_⟩
  · have hlen : len < 32 := by omega
    exact ⟨_, respondIf_of_inDomain ((rotateOk_iff 32 len).mpr hlen) _ s, fun _ => getLsbD_rotateLeft32 hlen _,
      fun _ => getLsbD_rotateLeft32_of_ge _ len⟩
  · exact respondIf_of_not_inDomain (mt (rotateOk_iff 32 len).mp (by omega)) _ s

/-- Settles O35: inside the domain ROL64 answers `rotateLeft64`, read bit by bit. -/
theorem rol64RotatesTheWord : Obligations.Rol64RotatesTheWord := by
  refine ⟨fun _ _ => decode_encodeFields (by decide), fun s len h => ?_, fun s len h => ?_⟩
  · have hlen : len < 64 := by omega
    exact ⟨_, respondIf_of_inDomain ((rotateOk_iff 64 len).mpr hlen) _ s, fun _ => getLsbD_rotateLeft64 hlen _⟩
  · exact respondIf_of_not_inDomain (mt (rotateOk_iff 64 len).mp (by omega)) _ s

/-- Settles O36: inside the domain REVBITS answers `reverseLow`, read bit by bit. -/
theorem revbitsReversesTheLowBits : Obligations.RevbitsReversesTheLowBits := by
  refine ⟨fun _ _ => decode_encodeFields (by decide), fun s len h => ?_, fun s len h => ?_⟩
  · exact ⟨_, respondIf_of_inDomain ((countOk_iff len).mpr h) _ s, fun i _ => getLsbD_reverseLow h _ i⟩
  · exact respondIf_of_not_inDomain (mt (countOk_iff len).mp (by omega)) _ s

/-- Settles O37: BSWAP32 answers `byteSwap32` in every state, read byte by byte. -/
theorem bswap32ReversesFourBytes : Obligations.Bswap32ReversesFourBytes :=
  ⟨fun _ _ => decode_encodeFields (by decide), fun s => ⟨_, respond_eq _ _ s, fun _ => byteOf_byteSwap32 _,
    highHalf_byteSwap32 _⟩⟩

/-- Settles O38: BSWAP64 answers `byteSwap64` in every state, read byte by byte. -/
theorem bswap64ReversesEightBytes : Obligations.Bswap64ReversesEightBytes :=
  ⟨fun _ _ => decode_encodeFields (by decide), fun s => ⟨_, respond_eq _ _ s, fun _ => byteOf_byteSwap64 _⟩⟩

/-- Settles O39: all four rotations are inside the domain, and their low halves are the library's rotations. -/
theorem rol32Composes : Obligations.Rol32Composes := by
  intro a b m n hm hn
  have hm' : m < 32 := by omega
  have hn' : n < 32 := by omega
  have hmod (k : Nat) : k % 32 < 32 := Nat.mod_lt k (by decide)
  refine ⟨_, _, _, _, resultOf_rol32 hm' a b, resultOf_rol32 hn' _ b, resultOf_rol32 (hmod _) a b,
    lowHalf_rotateLeft32_rotateLeft32 hm' hn' a, fun i hi => getLsbD_rotateLeft32 hm' a (by omega),
    resultOf_rol32 (hmod _) a b, ?_⟩
  rw [rotateLeft32_complement a hn']
  exact lowHalf_setWidth _

/-- Settles O40: all four rotations are inside the domain, and compose as the library's do. -/
theorem rol64Composes : Obligations.Rol64Composes := by
  intro a b m n hm hn
  have hm' : m < 64 := by omega
  have hn' : n < 64 := by omega
  have hmod (k : Nat) : k % 64 < 64 := Nat.mod_lt k (by decide)
  refine ⟨_, _, resultOf_rol64 hm' a b, resultOf_rol64 hn' _ b, ?_,
    fun i hi => getLsbD_rotateLeft64 hm' a (by omega), ?_⟩
  · rw [resultOf_rol64 (hmod _), rotateLeft64_rotateLeft64 hm' hn']
  · rw [resultOf_rol64 (hmod _), rotateLeft64_complement a hn']

/-- Settles O41: both reversals are inside the domain; by 64, bit `i` comes from bit 63 - i. -/
theorem revbitsTwiceGivesTheLowBits : Obligations.RevbitsTwiceGivesTheLowBits := by
  refine ⟨fun a b len h => ⟨_, resultOf_revbits h a b, ?_⟩,
    fun a b => ⟨_, resultOf_revbits le_rfl a b, fun i hi => ?_⟩⟩
  · rw [resultOf_revbits h, reverseLow_reverseLow h]
  · have hlt : i < 64 := by omega
    rw [getLsbD_reverseLow le_rfl, decide_eq_true hlt, Bool.true_and]

/-- Settles O42: the byte-swaps always answer OK, and the laws are those of the datapath. -/
theorem byteSwapsRoundTrip : Obligations.ByteSwapsRoundTrip := fun a _ =>
  ⟨⟨_, rfl, congrArg some (byteSwap32_byteSwap32 a)⟩, ⟨_, rfl, congrArg some (byteSwap64_byteSwap64 a)⟩,
    _, _, _, rfl, rfl, rfl, byteSwap64_eq_append a⟩

end

section
/-! The high part of a product (44_mulhigh.md): the high word of an exact product as a number and as the upper half of a
128-bit word, its correction when a factor is read as signed (R226), and the sum of the four cross-products (R228). -/

namespace Sys2Proof.Machine

/-! ### What the three multiplies answer -/

theorem resultOf_mulh (a b : Word) : resultOf .mulh a b = some (mulHighSigned a b) := rfl

theorem resultOf_mulhu (a b : Word) : resultOf .mulhu a b = some (mulHighUnsigned a b) := rfl

theorem resultOf_mulhsu (a b : Word) : resultOf .mulhsu a b = some (mulHighSignedUnsigned a b) := rfl

/-! ### The high word of an exact product -/

/-- A high word in the unsigned range is exact (R220). -/
theorem toNat_hi64 {p : Nat} (h : p / 2 ^ 64 < 2 ^ 64) : (hi64 p).toNat = p / 2 ^ 64 := by
  have hcast : (p : Int) / 2 ^ 64 = ((p / 2 ^ 64 : Nat) : Int) := by norm_cast
  rw [hi64, hcast, BitVec.ofInt_natCast, BitVec.toNat_ofNat, Nat.mod_eq_of_lt h]

/-- The high word is bits [127:64] of the product as a 128-bit word (R220). -/
theorem hi64_eq_extractLsb' (p : Int) : hi64 p = (BitVec.ofInt 128 p).extractLsb' 64 64 := by
  apply BitVec.eq_of_toNat_eq
  rw [hi64, BitVec.extractLsb'_toNat, BitVec.toNat_ofInt, BitVec.toNat_ofInt, Nat.shiftRight_eq_div_pow]
  omega

/-- Multiples of 2^64 pass into the high word. -/
theorem hi64_sub_mul (p q : Int) : hi64 (p - 2 ^ 64 * q) = hi64 p - BitVec.ofInt 64 q := by
  rw [hi64, Int.sub_mul_ediv_left p q (by decide), sub_eq_add_neg, BitVec.ofInt_add, BitVec.ofInt_neg,
    ← BitVec.sub_eq_add_neg, hi64]

/-! ### The ranges of R222, R224 and R225 -/

/-- The signed product lies in [-2^126, 2^126], which gives the range of R222. -/
theorem signed_quotient_bounds (a b : Word) :
    -(2 ^ 62) ≤ a.toInt * b.toInt / 2 ^ 64 ∧ a.toInt * b.toInt / 2 ^ 64 ≤ 2 ^ 62 := by
  have hlower : -(2 ^ 126) ≤ a.toInt * b.toInt := BitVec.le_toInt_mul_toInt
  have hupper : a.toInt * b.toInt ≤ 2 ^ 126 := BitVec.toInt_mul_toInt_le
  omega

/-- The unsigned product is at most the square of the largest word, which gives the range of R224. -/
theorem unsigned_quotient_le (a b : Word) : a.toNat * b.toNat / 2 ^ 64 ≤ 2 ^ 64 - 2 := by
  have hle : a.toNat * b.toNat ≤ (2 ^ 64 - 1) * (2 ^ 64 - 1) :=
    Nat.mul_le_mul (Nat.le_pred_of_lt a.isLt) (Nat.le_pred_of_lt b.isLt)
  omega

/-- The unsigned factor is below 2^64, so the mixed quotient is in the range of the signed factor (R225). -/
theorem mixed_quotient_bounds (a b : Word) :
    -(2 ^ 63) ≤ a.toInt * (b.toNat : Int) / 2 ^ 64 ∧ a.toInt * (b.toNat : Int) / 2 ^ 64 < 2 ^ 63 := by
  have hb : b.toNat < 2 ^ 64 := b.isLt
  have hleast : -(2 ^ 63) * (b.toNat : Int) ≤ a.toInt * b.toNat :=
    Int.mul_le_mul_of_nonneg_right a.le_toInt (Int.natCast_nonneg _)
  have hmost : a.toInt * b.toNat ≤ (2 ^ 63 - 1) * (b.toNat : Int) :=
    Int.mul_le_mul_of_nonneg_right (Int.le_sub_one_of_lt a.toInt_lt) (Int.natCast_nonneg _)
  omega

theorem toInt_mulHighSigned (a b : Word) : (mulHighSigned a b).toInt = a.toInt * b.toInt / 2 ^ 64 := by
  obtain ⟨hlower, hupper⟩ := signed_quotient_bounds a b
  exact toInt_hi64 (by omega) (by omega)

theorem toNat_mulHighUnsigned (a b : Word) : (mulHighUnsigned a b).toNat = a.toNat * b.toNat / 2 ^ 64 := by
  rw [mulHighUnsigned, ← Int.natCast_mul]
  exact toNat_hi64 (Nat.lt_of_le_of_lt (unsigned_quotient_le a b) (by decide))

theorem toInt_mulHighSignedUnsigned (a b : Word) :
    (mulHighSignedUnsigned a b).toInt = a.toInt * (b.toNat : Int) / 2 ^ 64 :=
  toInt_hi64 (mixed_quotient_bounds a b).1 (mixed_quotient_bounds a b).2

/-! ### Signed high words from the unsigned one (R226) -/

/-- A word read as signed is less by 2^64 when its sign bit is set (00_scope.md R13), so its product with `x` is less by
`2 ^ 64 * x`. -/
theorem mul_toInt_eq (x : Int) (b : Word) :
    x * b.toInt = x * b.toNat - 2 ^ 64 * (if b.getLsbD 63 then x else 0) := by
  rw [BitVec.toInt_eq_msb_cond, BitVec.msb_eq_getLsbD_last]
  split
  · push_cast; ring
  · ring

/-- Reading a factor as signed and not as unsigned corrects the high word by the other factor when its sign
bit is set. -/
theorem hi64_mul_toInt (x : Int) (b : Word) :
    hi64 (x * b.toInt) = hi64 (x * b.toNat) - ifNegative b (BitVec.ofInt 64 x) := by
  rw [mul_toInt_eq, hi64_sub_mul, ifNegative]
  split <;> rfl

theorem mulHighSignedUnsigned_eq (a b : Word) :
    mulHighSignedUnsigned a b = mulHighUnsigned a b - ifNegative a b := by
  rw [mulHighSignedUnsigned, Int.mul_comm, hi64_mul_toInt, BitVec.ofInt_natCast, BitVec.ofNat_toNat, BitVec.setWidth_eq,
    Int.mul_comm, mulHighUnsigned]

theorem mulHighSigned_eq (a b : Word) :
    mulHighSigned a b = mulHighUnsigned a b - ifNegative a b - ifNegative b a := by
  rw [mulHighSigned, hi64_mul_toInt, BitVec.ofInt_toInt, ← mulHighSignedUnsigned, mulHighSignedUnsigned_eq]

/-- For A with A[63] = 0 there is nothing to correct (R225). -/
theorem mulHighSignedUnsigned_of_not_negative {a : Word} (h : a.getLsbD 63 = false) (b : Word) :
    mulHighSignedUnsigned a b = mulHighUnsigned a b := by
  have hnone : ifNegative a b = 0 := if_neg (ne_true_of_eq_false h)
  rw [mulHighSignedUnsigned_eq, hnone, sub_zero]

/-! ### The portable decomposition (R228) -/

theorem toNat_eq_halves (a : Word) : a.toNat = highHalfNat a * 2 ^ 32 + (lowHalf a).toNat := by
  have hlt := a.isLt
  rw [highHalfNat, lowHalf, BitVec.extractLsb'_toNat, BitVec.extractLsb'_toNat, Nat.shiftRight_eq_div_pow,
    Nat.shiftRight_eq_div_pow]
  omega

/-- The carries of the four cross-products lose nothing of the high word. -/
theorem crossProducts_high (p00 p01 p10 p11 : Nat) :
    p11 + p01 / 2 ^ 32 + p10 / 2 ^ 32 + (p00 / 2 ^ 32 + p01 % 2 ^ 32 + p10 % 2 ^ 32) / 2 ^ 32 =
      (p11 * 2 ^ 64 + (p01 + p10) * 2 ^ 32 + p00) / 2 ^ 64 := by
  omega

/-- The product is the sum of the four cross-products in their places. -/
theorem mulhuPortable_eq (a b : Word) : mulhuPortable a b = mulHighUnsigned a b := by
  have hproduct : a.toNat * b.toNat = highHalfNat a * highHalfNat b * 2 ^ 64 +
      ((lowHalf a).toNat * highHalfNat b + highHalfNat a * (lowHalf b).toNat) * 2 ^ 32 +
      (lowHalf a).toNat * (lowHalf b).toNat := by
    rw [toNat_eq_halves a, toNat_eq_halves b]; ring
  apply BitVec.eq_of_toNat_eq
  rw [toNat_mulHighUnsigned, mulhuPortable, crossProducts_high, ← hproduct, BitVec.toNat_ofNat]
  exact Nat.mod_eq_of_lt (Nat.lt_of_le_of_lt (unsigned_quotient_le a b) (by decide))

theorem mulhsuPortable_eq (a b : Word) : mulhsuPortable a b = mulHighSignedUnsigned a b := by
  rw [mulhsuPortable, mulhuPortable_eq, mulHighSignedUnsigned_eq]

theorem mulhPortable_eq (a b : Word) : mulhPortable a b = mulHighSigned a b := by
  rw [mulhPortable, mulhuPortable_eq, mulHighSigned_eq]

end Sys2Proof.Machine

open Sys2Proof Sys2Proof.Machine

/-- Settles O43: the exact quotient, in the bounds of every signed quotient. -/
theorem mulhAnswersTheSignedHighPart : Obligations.MulhAnswersTheSignedHighPart := by
  refine ⟨fun _ _ => decode_encodeFields (by decide),
    fun s => ⟨_, respond_eq _ _ s, toInt_mulHighSigned _ _, ?_⟩⟩
  rw [toInt_mulHighSigned]
  exact signed_quotient_bounds _ _

/-- Settles O44: the exact quotient, bounded by that of the largest product. -/
theorem mulhuAnswersTheUnsignedHighPart : Obligations.MulhuAnswersTheUnsignedHighPart := by
  refine ⟨fun _ _ => decode_encodeFields (by decide),
    fun s => ⟨_, respond_eq _ _ s, toNat_mulHighUnsigned _ _, ?_⟩⟩
  rw [toNat_mulHighUnsigned]
  exact unsigned_quotient_le _ _

/-- Settles O45: the exact quotient, which is MULHU's when there is no sign to correct. -/
theorem mulhsuAnswersTheMixedHighPart : Obligations.MulhsuAnswersTheMixedHighPart := by
  refine ⟨fun _ _ => decode_encodeFields (by decide),
    fun s => ⟨_, respond_eq _ _ s, toInt_mulHighSignedUnsigned _ _, fun h => ?_⟩⟩
  rw [resultOf_mulhu, mulHighSignedUnsigned_of_not_negative h]

/-- Settles O46: each answer is the high word of its product, which is the upper half of the 128-bit word. -/
theorem highPartsAreTheUpperHalfOfTheProduct : Obligations.HighPartsAreTheUpperHalfOfTheProduct := by
  intro a b
  simp only [← hi64_eq_extractLsb']
  exact ⟨resultOf_mulh a b, resultOf_mulhu a b, resultOf_mulhsu a b⟩

/-- Settles O47: each factor read as signed costs one correction. -/
theorem signedHighPartsAreCorrectionsOfTheUnsigned : Obligations.SignedHighPartsAreCorrectionsOfTheUnsigned := by
  refine fun a b => ⟨mulHighUnsigned a b, resultOf_mulhu a b, ?_, ?_⟩
  · rw [resultOf_mulhsu, mulHighSignedUnsigned_eq, ifNegative]
  · rw [resultOf_mulh, mulHighSigned_eq, ifNegative, ifNegative]

/-- Settles O48: the four cross-products give MULHU, and the same corrections give the other two. -/
theorem portableDecompositionEqualsTheProduct : Obligations.PortableDecompositionEqualsTheProduct := by
  intro a b
  rw [mulhuPortable_eq, mulhsuPortable_eq, mulhPortable_eq]
  exact ⟨resultOf_mulhu a b, resultOf_mulhsu a b, resultOf_mulh a b⟩

end

section
/-! The error code of an answer (60_exceptions.md R301 to R304): the domain that R63 gives each operation, as a check of the
instruction, decides between OK and DOMAIN. -/

namespace Sys2Proof.Machine

variable {i : Instr}

/-- The instruction is inside the domain of its operation (R63, R303); an operation that R303 does not list has no
condition to fail. -/
def inDomain : Instr → Bool
  | .mask len | .revbits len => countOk len
  | .extract pos len | .replace pos len => fieldOk pos len
  | .test pos => bitOk pos
  | .sext len => signWidthOk len
  | .rol32 len => rotateOk 32 len
  | .rol64 len => rotateOk 64 len
  | _ => true

/-- Outside its domain an operation responds 0, DOMAIN (R303). -/
theorem perform_of_outside (h : inDomain i = false) (a b : Word) : perform i a b = some ⟨0, 0b10⟩ := by
  cases i with
  | mask | extract | replace | test | sext | rol32 | rol64 | revbits =>
    rw [perform_of_checked rfl]
    exact congrArg some (if_neg (Bool.eq_false_iff.mp h))
  | npow2 | clz | bitlen | bswap32 | bswap64 | mulh | mulhu | mulhsu | reserved => nomatch h

/-- Inside its domain an operation of R65 responds OK (R301). -/
theorem perform_of_inDomain (hop : i.opNumber < 16) (hwf : i.wf = true) (h : inDomain i = true) (a b : Word) :
    ∃ r : Word, perform i a b = some ⟨r, 0b00⟩ := by
  cases i with
  | mask | extract | replace | test | sext | rol32 | rol64 | revbits =>
    exact ⟨_, (perform_of_checked rfl).trans (congrArg some (if_pos h))⟩
  | npow2 | clz | bitlen | bswap32 | bswap64 | mulh | mulhu | mulhsu => exact ⟨_, rfl⟩
  | reserved op =>
    have hge : 16 ≤ op := by simp_all [Instr.wf, opReserved]
    exact absurd hge (Nat.not_le_of_lt hop)

/-- The conditions of R303, on the fields of the control word. -/
def DomainError (op pos len : Nat) : Prop :=
  (op = 0 ∧ 64 < len) ∨
  ((op = 1 ∨ op = 2) ∧ (64 < len ∨ 64 < pos ∨ 64 < pos + len)) ∨
  (op = 3 ∧ 63 < pos) ∨
  (op = 4 ∧ (len = 0 ∨ 64 < len)) ∨
  (op = 8 ∧ 31 < len) ∨
  (op = 9 ∧ 63 < len) ∨
  (op = 10 ∧ 64 < len)

/-- What the fields select is inside its domain exactly when no condition of R303 holds. -/
theorem inDomain_selectOp_iff (op pos len : Nat) :
    inDomain (selectOp op pos len) = true ↔ ¬ DomainError op pos len := by
  rcases Nat.lt_or_ge op 16 with hop | hop
  · interval_cases op <;> simp only [selectOp, inDomain, countOk_iff, fieldOk_iff, bitOk_iff, signWidthOk_iff,
      rotateOk_iff, DomainError, true_and, true_or, or_true, true_iff] <;> omega
  · simp only [selectOp_of_ge hop, inDomain, DomainError, true_iff]
    omega

end Sys2Proof.Machine

open Sys2Proof Sys2Proof.Machine

/-- Settles O20: a word with reserved bits is rejected and a reserved `op` raises ILLEGAL_OP; any other word selects an
operation whose domain check chooses between DOMAIN and OK. -/
theorem errorCodeOfEveryRequest : Obligations.ErrorCodeOfEveryRequest := by
  refine fun ctl a b => ⟨fun hillegal => ?_, fun hrsv hop => ?_⟩
  · by_cases hrsv : Ctl.rsv ctl = 0
    · have hop : 16 ≤ Ctl.op ctl := hillegal.resolve_left (not_not_intro hrsv)
      rw [answer_of_decode (decode_of_rsv_zero hrsv), selectOp_of_ge hop]
      rfl
    · exact answer_of_reject (decode_of_rsv_ne hrsv) a b
  · have hdomain := inDomain_selectOp_iff (Ctl.op ctl) (Ctl.pos ctl) (Ctl.len ctl)
    have hwf := selectOp_wf (op_le ctl) (pos_le ctl) (len_le ctl)
    rw [answer_of_decode (decode_of_rsv_zero hrsv)]
    refine ⟨fun houtside => perform_of_outside ?_ a b, fun hinside => ?_⟩
    · exact Bool.eq_false_iff.mpr fun hin => hdomain.mp hin houtside
    · exact perform_of_inDomain (by rwa [opNumber_selectOp]) hwf (hdomain.mpr hinside) a b

end

section
/-! An error changes no later answer (60_exceptions.md R306). The step is a function of the state, and two runs that part in
one cycle and are driven alike from then on differ in one stage alone, which moves on with each step and leaves. -/

namespace Sys2Proof.Machine

variable {s t t' : State} {c : Prop} {m : Nat}

/-- The state after a step: the rising edge, then the answer to the request presented, if there is one (R28, R73). -/
def State.stepped (s : State) : State :=
  { s.clockEdge with
    front := if s.clockEdge.presents then answer s.nextPins.ctl s.nextPins.a s.nextPins.b else none }

theorem step_eq_stepped (s : State) : step s = .next s.stepped := settle_eq s.clockEdge

@[simp] theorem stepped_lat (s : State) : s.stepped.lat = s.lat := rfl
@[simp] theorem stepped_pins (s : State) : s.stepped.pins = s.nextPins := rfl
@[simp] theorem stepped_slots (s : State) : s.stepped.slots = s.slotsAfterEdge := rfl
@[simp] theorem stepped_inputs (s : State) : s.stepped.inputs = s.inputs.tail := rfl

theorem stages_zero (s : State) : s.stages[0]? = some s.front := rfl

theorem stages_succ (s : State) (k : Nat) : s.stages[k + 1]? = s.slots[k]? := rfl

/-- A run of `n` cycles is the step iterated `n` times; it never stops early (R8, R345). -/
theorem run_eq_iterate (n : Nat) (s : State) : Sys2Proof.core.run n s = .next (State.stepped^[n] s) := by
  induction n generalizing s with
  | zero => rfl
  | succ n ih => exact (core_run_succ (step_eq_stepped s) n).trans (ih s.stepped)

/-- The new response depends on `LAT` and the caller's next input alone (R20). -/
theorem stepped_front_congr (hlat : t.lat = t'.lat) (hnext : t.nextPins = t'.nextPins) :
    t.stepped.front = t'.stepped.front := by
  simp [State.stepped, presents_congr (s := t.clockEdge) (t := t'.clockEdge) hlat hnext, hnext]

/-- A response that two machines agree on in one stage is one they agree on in the next stage after the edge, where both
have the same `rst`. -/
theorem getElem?_slotsAfterEdge_congr {k : Nat} (hlat : t.lat = t'.lat) (hrst : t.pins.rst = t'.pins.rst)
    (hstage : t.stages[k]? = t'.stages[k]?) : t.slotsAfterEdge[k]? = t'.slotsAfterEdge[k]? := by
  simp only [State.slotsAfterEdge, hlat, hrst]
  split
  · rfl
  · rw [List.getElem?_take, List.getElem?_take, hstage]

/-- After an edge there is no slot past the last one, however many there were before. -/
theorem getElem?_slotsAfterEdge_of_ge {k : Nat} (h : s.lat ≤ k) : s.slotsAfterEdge[k]? = none := by
  apply List.getElem?_eq_none
  unfold State.slotsAfterEdge
  split
  · rwa [List.length_replicate]
  · exact (List.length_take_le _ _).trans h

/-- Two machines `m` cycles after one in which they were driven differently, and alike since. `c` says that the two inputs
of that cycle agreed on `rst`: then stage `m` alone can differ, and otherwise the older stages can too. -/
structure PartedAgo (c : Prop) (m : Nat) (t t' : State) : Prop where
  lat : t.lat = t'.lat
  inputs : t.inputs = t'.inputs
  pins : 0 < m → t.pins = t'.pins
  rst : c → t.pins.rst = t'.pins.rst
  stages : ∀ k, k < m ∨ t.lat < k ∨ (c ∧ k ≠ m) → t.stages[k]? = t'.stages[k]?

/-- The cycle in which the two runs part. -/
theorem partedAgo_zero (s : State) (p p' : Pins) (later : List Pins) :
    PartedAgo (p.rst = p'.rst) 0 (State.stepped { s with inputs := p :: later })
      (State.stepped { s with inputs := p' :: later }) where
  lat := rfl
  inputs := rfl
  pins := nofun
  rst := id
  stages k hk := by
    obtain ⟨j, rfl⟩ := Nat.exists_eq_succ_of_ne_zero (n := k) (by omega)
    rfl

/-- A step on the same input moves the stage in which the two machines differ on by one. -/
theorem PartedAgo.stepped {q : Pins} {rest : List Pins} (h : PartedAgo c m t t') (hq : t.inputs = q :: rest) :
    PartedAgo c (m + 1) t.stepped t'.stepped := by
  have hnext : t.nextPins = t'.nextPins := by
    rw [nextPins_of_cons hq, nextPins_of_cons (h.inputs ▸ hq)]
  refine ⟨h.lat, congrArg List.tail h.inputs, fun _ => hnext, fun _ => congrArg Pins.rst hnext, fun k hk => ?_⟩
  cases k with
  | zero => rw [stages_zero, stages_zero, stepped_front_congr h.lat hnext]
  | succ j =>
    rw [stages_succ, stages_succ, stepped_slots, stepped_slots]
    rcases hk with hyounger | hpast | ⟨hc, hne⟩
    · exact getElem?_slotsAfterEdge_congr h.lat (congrArg Pins.rst (h.pins (by omega))) (h.stages j (.inl (by omega)))
    · have hj : t.lat ≤ j := Nat.le_of_lt_succ hpast
      rw [getElem?_slotsAfterEdge_of_ge hj, getElem?_slotsAfterEdge_of_ge (h.lat ▸ hj)]
    · exact getElem?_slotsAfterEdge_congr h.lat (h.rst hc) (h.stages j (.inr (.inr ⟨hc, by omega⟩)))

/-- The run through every input that the caller has listed. -/
theorem PartedAgo.iterate {later : List Pins} (h : PartedAgo c m t t') (hlater : t.inputs = later) :
    PartedAgo c (m + later.length) (State.stepped^[later.length] t) (State.stepped^[later.length] t') := by
  induction later generalizing m t t' with
  | nil => exact h
  | cons q rest ih =>
    have htail : t.stepped.inputs = rest := by rw [stepped_inputs, hlater, List.tail_cons]
    have hlength : m + (q :: rest).length = m + 1 + rest.length := by rw [List.length_cons]; omega
    rw [hlength]
    exact ih (h.stepped hlater) htail

theorem iterate_stepped_lat (n : Nat) (s : State) : (State.stepped^[n] s).lat = s.lat := by
  induction n generalizing s with
  | zero => rfl
  | succ n ih => exact ih s.stepped

/-- After a run through every listed input the last of them is on the pins. -/
theorem iterate_stepped_pins {later : List Pins} (hlater : s.inputs = later) :
    (State.stepped^[later.length] s).pins = later.getLastD s.pins := by
  induction later generalizing s with
  | nil => rfl
  | cons q rest ih =>
    have htail : s.stepped.inputs = rest := by rw [stepped_inputs, hlater, List.tail_cons]
    rw [List.length_cons, Function.iterate_succ_apply, ih htail, stepped_pins, nextPins_of_cons hlater,
      List.getLastD_cons]

/-- Once the stage in which they differ has passed the last one, the two machines are in one and the same state. -/
theorem PartedAgo.eq (h : PartedAgo c m t t') (hlat : t.lat < m) : t = t' := by
  have hstages : t.stages = t'.stages := List.ext_getElem? fun k => h.stages k (by omega)
  obtain ⟨hfront, hslots⟩ := List.cons.inj hstages
  cases t
  cases t'
  rw [State.mk.injEq]
  exact ⟨h.lat, h.pins (by omega), hfront, hslots, h.inputs⟩

end Sys2Proof.Machine

open Sys2Proof Sys2Proof.Machine

/-- Settles O21: the stage of the cycle in which the two runs part moves on with each step and leaves; no other stage
depends on it, whether or not its response is an error. -/
theorem anErrorChangesNoLaterAnswer : Obligations.AnErrorChangesNoLaterAnswer := by
  intro s p p' later _ _ _
  have hparted := (partedAgo_zero s p p' later).iterate rfl
  rw [Nat.zero_add] at hparted
  refine ⟨_, _, run_eq_iterate _ _, run_eq_iterate _ _, fun q hq => ?_, fun k hk => hparted.stages k (.inl hk),
    fun hrst k hk => hparted.stages k (.inr (.inr ⟨hrst, hk⟩)), fun _ hlat => hparted.eq ?_⟩
  · have hlast (u : State) (hu : u.inputs = later) : (State.stepped^[later.length] u).pins = q := by
      rw [iterate_stepped_pins hu, List.getLastD_eq_getLast?, hq, Option.getD_some]
    exact ⟨hlast _ rfl, hlast _ rfl⟩
  · rwa [iterate_stepped_lat]

end

section
/-! The stages of the pipeline along a run (70_reset_and_hazards.md R341, R343, R345): what an edge puts in each stage is
said once, and iterated for a response that is kept and for a stage that is empty. -/

namespace Sys2Proof.Machine

variable {s : State} {k n : Nat}

/-- The response in stage `k`, if that stage holds one: stage 0 is the request presented in this cycle, and stage `LAT` is
the output (R26, R28). -/
def State.stage (s : State) (k : Nat) : Option Response := (s.stages[k]?).join

theorem stage_zero (s : State) : s.stage 0 = s.front := rfl

theorem response_eq_stage (s : State) : s.response = s.stage s.lat := rfl

/-- A step moves each response one stage on, except from the last stage and at a reset edge, which discard it. -/
theorem stage_stepped_succ (s : State) (k : Nat) :
    s.stepped.stage (k + 1) = if s.pins.rst = false ∧ k < s.lat then s.stage k else none := by
  rw [State.stage, stages_succ, stepped_slots, State.slotsAfterEdge]
  by_cases hk : k < s.lat <;> cases s.pins.rst <;> simp [hk, State.stage]

/-- A response is kept, and moves on by one stage a cycle, in a run of cycles without reset. -/
theorem stage_iterate_stepped (hrst : ∀ i < n, (State.stepped^[i] s).pins.rst = false) (hk : k + n ≤ s.lat) :
    (State.stepped^[n] s).stage (k + n) = s.stage k := by
  induction n with
  | zero => rfl
  | succ n ih =>
    have hedge : (State.stepped^[n] s).pins.rst = false ∧ k + n < (State.stepped^[n] s).lat :=
      ⟨hrst n n.lt_succ_self, by rw [iterate_stepped_lat]; omega⟩
    rw [Function.iterate_succ_apply', ← Nat.add_assoc, stage_stepped_succ, if_pos hedge]
    exact ih (fun i hi => hrst i (by omega)) (by omega)

/-- An empty stage stays empty as it moves on, whatever the resets. -/
theorem stage_iterate_stepped_eq_none (h : s.stage k = none) (n : Nat) : (State.stepped^[n] s).stage (k + n) = none := by
  induction n with
  | zero => exact h
  | succ n ih => rw [Function.iterate_succ_apply', ← Nat.add_assoc, stage_stepped_succ, ih, ite_self]

/-- `rst` is 0 in a cycle when it is 0 now and in every input the caller lists up to that cycle. -/
theorem iterate_stepped_rst (hrst : s.pins.rst = false) (hahead : ∀ p ∈ s.inputs.take n, p.rst = false) :
    (State.stepped^[n] s).pins.rst = false := by
  induction n generalizing s with
  | zero => exact hrst
  | succ n ih =>
    rw [Function.iterate_succ_apply]
    cases hinputs : s.inputs with
    | nil => exact ih (by rw [stepped_pins, nextPins_of_nil hinputs]) (by simp [hinputs])
    | cons p rest =>
      rw [hinputs, List.take_succ_cons, List.forall_mem_cons] at hahead
      obtain ⟨hp, hrest⟩ := hahead
      exact ih (by rwa [stepped_pins, nextPins_of_cons hinputs]) (by rwa [stepped_inputs, hinputs, List.tail_cons])

/-- What stage `k` holds is at the output once it has moved on to stage `LAT`, if no reset edge falls between. -/
theorem response_iterate_of_no_reset (hrst : ∀ i < n, (State.stepped^[i] s).pins.rst = false) (hk : k + n = s.lat) :
    (State.stepped^[n] s).response = s.stage k := by
  rw [response_eq_stage, iterate_stepped_lat, ← hk, stage_iterate_stepped hrst hk.le]

/-- An empty stage is an output without a response once it has moved on to stage `LAT`, whatever the resets. -/
theorem rspValid_iterate_of_empty (h : s.stage k = none) (hk : k + n = s.lat) :
    (State.stepped^[n] s).rspValid = false := by
  rw [State.rspValid, response_eq_stage, iterate_stepped_lat, ← hk, stage_iterate_stepped_eq_none h, Option.isSome_none]

/-- After a reset edge no stage but the one of a request presented since holds a response (R341). -/
theorem stage_stepped_of_reset (hrst : s.pins.rst = true) (hk : 0 < k) : s.stepped.stage k = none := by
  obtain ⟨j, rfl⟩ := Nat.exists_eq_add_one.mpr hk
  rw [stage_stepped_succ, if_neg (by simp [hrst])]

end Sys2Proof.Machine

open Sys2Proof Sys2Proof.Machine

/-- Settles O16: the answer to the request, or none, stands in stage 0 and reaches the output in `LAT` steps, as none of
the `LAT` edges is a reset edge. -/
theorem responseAppearsAfterExactlyLatCycles : Obligations.ResponseAppearsAfterExactlyLatCycles := by
  rintro s ⟨-, hsettled, -⟩ hlat hrst hahead
  have hedges : ∀ i < s.lat, (State.stepped^[i] s).pins.rst = false := fun i hi =>
    iterate_stepped_rst hrst fun p hp => hahead p (List.take_subset_take_left s.inputs (Nat.le_sub_one_of_lt hi) hp)
  have hresponse : (State.stepped^[s.lat] s).response = s.front :=
    (response_iterate_of_no_reset hedges (Nat.zero_add s.lat)).trans (stage_zero s)
  have hfront := (settled_iff s).mp hsettled
  refine ⟨_, run_eq_iterate s.lat s, fun hvalid => ?_, fun hinvalid => ?_⟩
  · rw [if_pos ((presents_iff s).mpr (.inl ⟨hvalid, hrst⟩))] at hfront
    obtain ⟨r, hanswer, -⟩ := answer_given s.pins.ctl s.pins.a s.pins.b
    exact ⟨by rw [State.rspValid, hresponse, hfront, hanswer, Option.isSome_some], hresponse.trans hfront⟩
  · have hpresents : ¬ s.presents = true := by simp [presents_iff, hinvalid, hlat.ne']
    rw [State.rspValid, hresponse, hfront, if_neg hpresents, Option.isSome_none]

/-- Settles O17: what is at the output `k` cycles later stood, `LAT` cycles before, in stage 0 of a later cycle, which holds
no request, or else in a stage that the reset edge emptied. -/
theorem resetEdgeDiscardsEveryRequestInFlight : Obligations.ResetEdgeDiscardsEveryRequestInFlight := by
  refine fun s _ hrst => ⟨⟨_, step_eq_stepped s, if_pos hrst⟩, rfl, fun k t hk hrun hnone => ?_⟩
  obtain rfl : State.stepped^[k] s = t := Host.Outcome.next.inj ((run_eq_iterate k s).symm.trans hrun)
  rcases Nat.lt_or_ge s.lat k with hlate | hearly
  · obtain ⟨j, rfl⟩ := Nat.exists_eq_add_of_lt hlate
    have hempty : (State.stepped^[j + 1] s).front = none :=
      hnone (j + 1) _ (by omega) (by omega) (run_eq_iterate (j + 1) s)
    rw [Nat.add_assoc, Function.iterate_add_apply]
    exact rspValid_iterate_of_empty ((stage_zero _).trans hempty) (by rw [iterate_stepped_lat, Nat.zero_add])
  · obtain ⟨n, rfl⟩ := Nat.exists_eq_add_one.mpr hk
    have hempty : s.stepped.stage (s.lat - n) = none := stage_stepped_of_reset hrst (Nat.sub_pos_of_lt hearly)
    exact rspValid_iterate_of_empty (s := s.stepped) hempty (Nat.sub_add_cancel (Nat.le_of_lt hearly))

/-- Settles O19: settled signals with `LAT` = 0 show the answer to the inputs, and a step leaves the signals settled. -/
theorem combinationalOutputFollowsTheInputs : Obligations.CombinationalOutputFollowsTheInputs := by
  intro s hlat
  have hsettled : s.stepped.Settled := step_settled (step_eq_stepped s)
  have hresponse := response_of_settled_lat_zero hsettled hlat
  obtain ⟨r, hanswer, -⟩ := answer_given s.nextPins.ctl s.nextPins.a s.nextPins.b
  refine ⟨fun ⟨_, hs, _⟩ => response_of_settled_lat_zero hs hlat, _, step_eq_stepped s, rfl, hresponse, ?_⟩
  rw [hresponse, stepped_pins, hanswer]
  exact Option.some_ne_none r

namespace Sys2Proof.Tests

/-- P6 in cycle 4, a reset with CLZ's response in flight, and then a cycle without a request before the next one. -/
def p6ResetThenIdle : State := { p6Cycle4 with inputs := [Pins.idle, request 0x00000005 5] }

/-- O17 one cycle past `LAT`: its premises hold, and there is no response yet to the request of the second cycle. -/
theorem rspValid_p6ResetThenIdle {t : State} (hrun : Sys2Proof.core.run 3 p6ResetThenIdle = .next t) :
    t.rspValid = false := by
  obtain ⟨-, -, hsilent⟩ := resetEdgeDiscardsEveryRequestInFlight p6ResetThenIdle (by decide) rfl
  refine hsilent 3 t (by decide) hrun fun j u hj hle hu => ?_
  have hle' : j + 2 ≤ 3 := hle
  obtain rfl : j = 1 := by omega
  cases hu
  rfl

end Sys2Proof.Tests

end
